-- ==== Sys2Proof/Word.lean ====
section
/-! DEFINITION. The word types of the block (00_scope.md R10, 10_state.md R16). Every integer of the spec is unsigned. -/

namespace Sys2Proof

/-- A byte, 8 bits (R10). -/
abbrev Byte := BitVec 8

/-- A device address of the bus, 7 bits, unsigned (R18). -/
abbrev DevAddr := BitVec 7

/-- The decoded measurement, 16 bits, unsigned (R29). -/
abbrev Raw16 := BitVec 16

/-- An IEEE 754 binary32 pattern (R12, R30). -/
abbrev Pattern32 := BitVec 32

end Sys2Proof
end

