-- ==== Sys2Proof/Config.lean ====
section
/-! DEFINITION. The parameters that 00_scope.md R8 leaves open, and the free values. A constant without a body can
be evaluated by nothing in Lean, so a claim about it holds whatever it is. -/

namespace Sys2Proof

/-- The parameter `N_REQ`, less one: so many requesters there are besides the first, and `N_REQ` is at least 1 (R8, D13, log 3). -/
opaque Config.moreRequesters : Nat

/-- The parameter `N_REQ`: how many host requesters share the block (R8, D13, log 3). -/
def Config.nReq : Nat := Config.moreRequesters + 1

/-- A requester, one of the `N_REQ` requesters 0 to `N_REQ - 1` (R21). -/
abbrev Requester := Fin Config.nReq

/-- The requester 0, which every block has. -/
def Requester.first : Requester := ⟨0, Nat.succ_pos _⟩

/-- The parameter `TERR`, as far as it is open: whether the number n + 1 names one of its values (R8, D17, log 5). -/
opaque Config.terrHasMore : Nat → Bool

/-- Which numbers name the values of `TERR`: 0 and any others, so that `TERR` is an arbitrary non-empty type (R8, D17, log 5). -/
def Config.namesTErr : Nat → Bool
  | 0 => true
  | n + 1 => Config.terrHasMore n

/-- A value of `TERR`, the transport's opaque error (R8, R143, D17). The block copies it and never looks inside; the number
only tells two errors apart. DESIGN CHOICE, safe (log 5). -/
structure TErr where
  token : { n : Nat // Config.namesTErr n = true }
deriving DecidableEq, Repr

/-- The value of `TERR` that the number 0 names. -/
def TErr.first : TErr := ⟨⟨0, rfl⟩⟩

namespace Config

/-- `OPC_READ_USER_REG` (R99, D21): an open parameter; the spec forbids a claim on its value (log 10). -/
opaque opcReadUserReg : Byte

/-- `OPC_WRITE_USER_REG` (R100, D21): an open parameter; the spec forbids a claim on its value (log 10). -/
opaque opcWriteUserReg : Byte

/-- The serialisation of a transport error in a response, "which is `TERR`'s own" (R65, log 5). -/
opaque terrBytes : TErr → List Byte

/-- A byte of a register whose content the spec calls unspecified, the n-th such byte of a run (R27, U4, log 9). -/
opaque freeByte : Nat → Byte

/-- Microseconds of the environment's clock in one millisecond of a settle delay (R174; the clock's unit is log 6). -/
def usPerMs : Nat := 1000

end Config

end Sys2Proof
end

