-- ==== Sys2Proof/Syntax.lean ====
section
/-! DEFINITION. The instructions of both levels of 00_scope.md R14, one constructor per row of the opcode table, and the
names their operands and the sequencer use. -/

namespace Sys2Proof

/-- Host operations (30_encoding.md R63, R64) and sensor commands (30_encoding.md R68, R69). -/
inductive Instr where
  /-- INIT, OP 0x00, with its operand byte `ADDR` (R109). -/
  | init (addr : Byte)
  /-- RESET, OP 0x01 (R110). -/
  | reset
  /-- RD_TEMP_C, OP 0x02 (R111). -/
  | rdTempC
  /-- RD_TEMP_F, OP 0x03 (R112). -/
  | rdTempF
  /-- RD_HUM, OP 0x04 (R113). -/
  | rdHum
  /-- CRC_VALIDATE, OP 0x05; `LEN` is the length of `data` (R87). -/
  | crcValidate (data : List Byte) (expected : Byte)
  /-- CMD_LOOKUP, OP 0x06, with its operand byte `SEL` (R101). -/
  | cmdLookup (sel : Byte)
  /-- SOFT_RESET, bus byte 0xFE (R96). -/
  | softReset
  /-- TRIG_TEMP_NOHOLD, bus byte 0xF3 (R97). -/
  | trigTempNohold
  /-- TRIG_HUM_NOHOLD, bus byte 0xF5 (R98). -/
  | trigHumNohold
  /-- READ_USER_REG, bus byte `OPC_READ_USER_REG` (R99). -/
  | readUserReg
  /-- WRITE_USER_REG, bus byte `OPC_WRITE_USER_REG` (R100). -/
  | writeUserReg
deriving DecidableEq, Repr

/-- The selector of the command table (R67). -/
inductive Selector where
  | softReset | trigTempNohold | trigHumNohold | readUserReg | writeUserReg
deriving DecidableEq, Repr

/-- A guarded host operation with its operand as the sequencer uses it: what `PEND` and `CUR` hold (R21, R23, R64). -/
inductive GuardedOp where
  /-- INIT; the operand is `ADDR[6:0]`, since a request with `ADDR[7] = 1` is refused (R74). -/
  | init (addr : DevAddr)
  | reset | rdTempC | rdTempF | rdHum
deriving DecidableEq, Repr

end Sys2Proof
end

