-- ==== Sys2Proof/WellFormed.lean ====
section
/-! DEFINITION. Which instruction terms the encodings of 30_encoding.md admit. -/

namespace Sys2Proof

/-- The operand limits of R63 and R74: `ADDR[7] = 0`, `SEL` at most 4, at most 255 data bytes (D22); what exec
answers for other terms is log 22. -/
def Instr.wf : Instr → Bool
  | .init addr => !addr.msb
  | .crcValidate data _ => decide (data.length ≤ 255)
  | .cmdLookup sel => decide (sel.toNat ≤ 4)
  | .reset | .rdTempC | .rdTempF | .rdHum => true
  | .softReset | .trigTempNohold | .trigHumNohold | .readUserReg | .writeUserReg => true

/-- The instruction is a host operation, of the upper level of R14; the others are sensor commands. -/
def Instr.isHost : Instr → Bool
  | .init _ | .reset | .rdTempC | .rdTempF | .rdHum | .crcValidate _ _ | .cmdLookup _ => true
  | .softReset | .trigTempNohold | .trigHumNohold | .readUserReg | .writeUserReg => false

end Sys2Proof
end

