-- ==== Sys2Proof/Decode.lean ====
section
/-! DEFINITION. Decoding and encoding of host requests (30_encoding.md R63, R64, R73, R74) and of sensor command bytes
(R68, R69), and the layout of the opcode table's words. -/

namespace Sys2Proof

/-- Why a byte sequence is no host request. -/
inductive DecodeError where
  /-- No byte at all. -/
  | empty
  /-- The frame ends before the length that R63 gives it. DESIGN CHOICE, safe (log 12). -/
  | truncated
  /-- Bytes follow the length that R63 gives the frame. DESIGN CHOICE, safe (log 12). -/
  | trailingBytes
  /-- `OP` 0x07 to 0xFF (R73, U1). -/
  | reservedOperation (op : Byte)
  /-- INIT with `ADDR[7] = 1` (R74, U2). -/
  | addressBit7
  /-- CMD_LOOKUP with `SEL` 5 to 255 (R74, U2). -/
  | selectorAbove4
deriving DecidableEq, Repr

/-- The decoder's answer: an instruction with the bytes after it, or the reason for refusing. -/
inductive Decoded where
  | ok (i : Instr) (rest : List Byte)
  | bad (e : DecodeError)
deriving DecidableEq, Repr

/-- INIT form `[OP, ADDR]`, after `OP` (R63, R74). -/
def decodeInit : List Byte → Decoded
  | [] => .bad .truncated
  | addr :: rest => if addr.msb then .bad .addressBit7 else .ok (.init addr) rest

/-- CMD_LOOKUP form `[OP, SEL]`, after `OP` (R63, R74). -/
def decodeLookup : List Byte → Decoded
  | [] => .bad .truncated
  | sel :: rest => if sel.toNat ≤ 4 then .ok (.cmdLookup sel) rest else .bad .selectorAbove4

/-- CRC_VALIDATE form `[OP, LEN, DATA.., EXPECTED]`, after `OP` (R63, R79: its length is `LEN + 3`). -/
def decodeCrc : List Byte → Decoded
  | [] => .bad .truncated
  | len :: rest =>
    match rest.drop len.toNat with
    | [] => .bad .truncated
    | expected :: rest' => .ok (.crcValidate (rest.take len.toNat) expected) rest'

/-- A host request at the head of a byte sequence: `OP` selects the form (R63, R64); 0x07 to 0xFF are reserved (R73). -/
def decodeRequest : List Byte → Decoded
  | [] => .bad .empty
  | op :: rest =>
    match op.toNat with
    | 0 => decodeInit rest
    | 1 => .ok .reset rest
    | 2 => .ok .rdTempC rest
    | 3 => .ok .rdTempF rest
    | 4 => .ok .rdHum rest
    | 5 => decodeCrc rest
    | 6 => decodeLookup rest
    | _ => .bad (.reservedOperation op)

/-- A request frame as a requester hands it over: exactly the bytes of one request (log 12). -/
def decodeFrame (frame : List Byte) : Decoded :=
  match decodeRequest frame with
  | .ok i [] => .ok i []
  | .ok _ (_ :: _) => .bad .trailingBytes
  | .bad e => .bad e

/-- A sensor command byte (R69), the opcodes of the two register commands being parameters. Where a parameter happens to
equal one of the three fixed bytes, the fixed command is meant; where the two parameters are equal, READ_USER_REG is. DESIGN CHOICE,
safe (log 23). -/
def decodeCommandWith (readOpc writeOpc b : Byte) : Option Instr :=
  if b = 0xFE#8 then some .softReset
  else if b = 0xF3#8 then some .trigTempNohold
  else if b = 0xF5#8 then some .trigHumNohold
  else if b = readOpc then some .readUserReg
  else if b = writeOpc then some .writeUserReg
  else none

/-- A sensor command byte with the block's own parameters (R8). -/
def decodeCommand (b : Byte) : Option Instr :=
  decodeCommandWith Config.opcReadUserReg Config.opcWriteUserReg b

/-- The bytes of an instruction, the opcodes of the two register commands being parameters: host requests by the table of
R63 and R64, sensor commands by R69. -/
def encodeWith (readOpc writeOpc : Byte) : Instr → List Byte
  | .init addr => [0x00#8, addr]
  | .reset => [0x01#8]
  | .rdTempC => [0x02#8]
  | .rdTempF => [0x03#8]
  | .rdHum => [0x04#8]
  | .crcValidate data expected => 0x05#8 :: BitVec.ofNat 8 data.length :: (data ++ [expected])
  | .cmdLookup sel => [0x06#8, sel]
  | .softReset => [0xFE#8]
  | .trigTempNohold => [0xF3#8]
  | .trigHumNohold => [0xF5#8]
  | .readUserReg => [readOpc]
  | .writeUserReg => [writeOpc]

/-- The bytes of an instruction with the block's own parameters. -/
def encode (i : Instr) : List Byte :=
  encodeWith Config.opcReadUserReg Config.opcWriteUserReg i

/-- The bytes of a word of the opcode table, first byte first. The table numbers a two-byte request as one 16-bit word
whose first byte is the more significant (rows INIT, CMD_LOOKUP), and counts any other row's bytes from bit 0 up (row
CRC_VALIDATE, whose match and mask are for byte 0). DEDUCED, safe (log 13). -/
def tableBytes (nbits w : Nat) : List Byte :=
  if nbits = 16 then [BitVec.ofNat 8 (w / 256), BitVec.ofNat 8 w]
  else (List.range ((nbits + 7) / 8)).map fun k => BitVec.ofNat 8 (w / 256 ^ k)

/-- How many zero bytes complete any request that starts with these bytes: a CRC_VALIDATE frame has `LEN + 3` bytes, any other
at most two (R63, R79). -/
def tablePadding : List Byte → Nat
  | op :: len :: _ => if op = 0x05#8 then len.toNat + 1 else 0
  | _ => 2

/-- The bytes of a word of the opcode table, every bit above its own being 0. -/
def tablePadded (nbits w : Nat) : List Byte :=
  tableBytes nbits w ++ List.replicate (tablePadding (tableBytes nbits w)) 0x00#8

/-- The request frame a table word stands for: as many bytes as the decoder takes, or the word's own bytes where it
refuses them. -/
def tableFrame (nbits w : Nat) : List Byte :=
  match decodeRequest (tablePadded nbits w) with
  | .ok _ rest => (tablePadded nbits w).take ((tablePadded nbits w).length - rest.length)
  | .bad _ => tableBytes nbits w

/-- The instruction that a byte sequence starts with, at either level: a host request where the first byte is a host
operation code, else a sensor command byte. -/
def decodeEither (bytes : List Byte) : Option Instr :=
  match decodeRequest bytes, bytes with
  | .ok i _, _ => some i
  | .bad (.reservedOperation _), b :: _ => decodeCommand b
  | .bad _, _ => none

/-- What the decoder reads from a word of the opcode table. -/
def decodeTableWord (nbits w : Nat) : Option Instr :=
  decodeEither (tablePadded nbits w)

end Sys2Proof
end

