-- ==== Sys2Proof/Machine/State.lean ====
section
/-! DEFINITION. The state of the block (10_state.md R16), the settle-delay timer (60_exceptions.md R157), what the outside
world does next, and what the block has been seen to do. -/

namespace Sys2Proof.Machine

/-- The three bytes of a response frame, in the order read (R27, R70). -/
structure Sample where
  msb : Byte
  lsb : Byte
  crc : Byte
deriving DecidableEq, Repr

/-- The exclusive-access guard (R20). -/
inductive Lock where
  | free
  | held (who : Requester)
deriving DecidableEq, Repr

/-- The sequencer's position: the nine values of R25 and no others. -/
inductive Phase where
  | idle | lookup | write | delay | read | check | decode | convert | respond
deriving DecidableEq, Repr

/-- `CUR`: the admitted operation and its requester (R23). -/
structure Request where
  op  : GuardedOp
  who : Requester
deriving DecidableEq, Repr

/-- `STATUS`: the three codes of R66 that are ever produced. -/
inductive Status where
  | ok | transport | checksum
deriving DecidableEq, Repr

/-- `PEND`: the waiting operation of each requester that has one, requesters strictly rising (R21). -/
abbrev Pending := List (Requester × GuardedOp)

/-- The canonical form of `PEND`: no requester twice, in order. -/
abbrev Pending.wf (p : Pending) : Prop := p.Pairwise fun a b => a.1 < b.1

/-- The transport's answer to a bus write (R46). -/
inductive WriteAnswer where
  | ok
  | err (e : TErr)
deriving DecidableEq, Repr

/-- The transport's answer to a bus read: the whole frame, or an error (R47). -/
inductive ReadAnswer where
  | ok (f : Sample)
  | err (e : TErr)
deriving DecidableEq, Repr

/-- One act of the outside world (R48, R159). -/
inductive Input where
  /-- A requester issues a request, serialised as R63 says. -/
  | request (who : Requester) (frame : List Byte)
  /-- The guard admits this requester next (R22, `ARB_POLICY`). -/
  | grant (who : Requester)
  /-- The transport answers the write call (R46). -/
  | writeAnswered (a : WriteAnswer)
  /-- The settle delay ends, this many microseconds after the earliest moment R174 allows. -/
  | wake (extra : Nat)
  /-- The transport answers the read call (R47). -/
  | readAnswered (a : ReadAnswer)
  /-- Time passes, in microseconds (R174). -/
  | advance (us : Nat)
  /-- The hardware reset (R164, R181). -/
  | hardwareReset
deriving DecidableEq, Repr

/-- The response record of R65. -/
inductive Response where
  /-- INIT, RESET, CRC_VALIDATE: status OK and nothing else. -/
  | ok
  /-- RD_TEMP_C, RD_TEMP_F, RD_HUM: status OK and the binary32 pattern. -/
  | okValue (v : Pattern32)
  /-- CMD_LOOKUP: status OK and the command pair. -/
  | okCommand (opcode delayMs : Byte)
  | transport (e : TErr)
  | checksum (expected actual : Byte)
deriving DecidableEq, Repr

/-- What can be seen of the block from outside (R49, R106). A transport call and its answer are two events, so that a call
the transport never answers is seen (R175, log 16). -/
inductive Event where
  | admitted (r : Request)
  | writeCall (addr : Byte) (bytes : List Byte)
  | writeAnswer (a : WriteAnswer)
  | readCall (addr : Byte) (len : Nat)
  | readAnswer (a : ReadAnswer)
  /-- The response of a guarded operation (phase RESPOND). -/
  | response (who : Requester) (r : Response)
  /-- The response of a pure operation (R121). -/
  | pureResponse (who : Requester) (r : Response)
  | hardwareReset
deriving DecidableEq, Repr

/-- An event and the time, in microseconds of the environment's clock, at which it was seen. -/
structure Observed where
  time  : Nat
  event : Event
deriving DecidableEq, Repr

/-- The machine. The first sixteen fields are the items of R16 in its order; `timer` is the timer of R157; the rest is the
model's own (INVENTORY.md, State). -/
structure State where
  devAddr     : DevAddr
  ready       : Bool
  lock        : Lock
  pend        : Pending
  phase       : Phase
  cur         : Request
  cmdOpc      : Byte
  cmdDly      : Byte
  raw         : Sample
  crcAcc      : Byte
  d           : Raw16
  result      : Pattern32
  status      : Status
  errExpected : Byte
  errActual   : Byte
  errT        : TErr
  timer       : Nat
  issuer      : Requester
  inputs      : List Input
  now         : Nat
  trace       : List Observed
  draws       : Nat
deriving DecidableEq, Repr

/-- Why the machine could stop with a fault. The block "never terminates, halts or locks up as the result of an error" (R153)
and has no arithmetic, alignment, access or illegal-operation fault (R147): there is none. Both errors of R142 are responses. -/
inductive Fault where
deriving DecidableEq, Repr

/-- Why the model gives a request, or an act of the outside world, no meaning. Every refusal is safe: the run stops where
the spec gives no effect. -/
inductive Refusal where
  /-- Raised by exec's arm of an instruction without a meaning; this model has none. Safe. -/
  | notModelled (mnemonic : String)
  /-- Raised by step: the frame is no host request (R73, R74). Safe. -/
  | badRequest (e : DecodeError)
  /-- Raised by INIT on a term with `ADDR[7] = 1` (R74). Safe. -/
  | illegalAddress
  /-- Raised by CMD_LOOKUP on a term with `SEL` above 4 (R74). Safe. -/
  | illegalSelector
  /-- Raised by RESET, RD_TEMP_C, RD_TEMP_F, RD_HUM while `READY = 0` (R75, R120). Safe. -/
  | notReady
  /-- Raised by INIT while `READY = 1` (R75, R120). Safe. -/
  | handleExists
  /-- Raised by INIT while another INIT is pending or in progress (R120). Safe. -/
  | initOutstanding
  /-- Raised by a guarded operation whose requester already has one outstanding: such a requester is blocked and issues
  nothing (R21, R105, log 15). Safe. -/
  | requesterBlocked
  /-- Raised by READ_USER_REG and WRITE_USER_REG: the commands are never issued and their framing is in no source
  (R69, R99, R100, U13, log 11). Safe. -/
  | registerCommandNeverIssued
  /-- Raised by a sensor command that the sequencer has not loaded: it is sent only in phase WRITE of a transaction whose
  operation selects it (R106, log 19). Safe. -/
  | commandNotLoaded
  /-- Raised by step: an act of the outside world that fits no call, delay or pending request (R22, R46, R47, log 17). Safe. -/
  | inputFitsNothing
deriving DecidableEq, Repr

/-- The block after hardware reset (R37). READY, LOCK, PEND, PHASE are the spec's; every register R37 calls unspecified holds a
value the model names. DESIGN CHOICE, unsafe (log 7); the model's own fields: log 24. -/
def State.reset : State where
  devAddr := 0
  ready := false
  lock := .free
  pend := []
  phase := .idle
  cur := ⟨.reset, .first⟩
  cmdOpc := 0
  cmdDly := 0
  raw := ⟨0, 0, 0⟩
  crcAcc := 0
  d := 0
  result := 0
  status := .ok
  errExpected := 0
  errActual := 0
  errT := .first
  timer := 0
  issuer := .first
  inputs := []
  now := 0
  trace := []
  draws := 0

end Sys2Proof.Machine
end

