-- ==== Sys2Proof/Machine/Converter.lean ====
section
/-! DEFINITION. The converter (43_converter.md R130 to R133): exact rational formulas, each rounded to binary32 as
00_scope.md R12 says. -/

namespace Sys2Proof.Machine

/-- The natural number nearest to n / d, ties to the even one. -/
def roundHalfEven (n d : Nat) : Nat :=
  if 2 * (n % d) < d then n / d
  else if d < 2 * (n % d) then n / d + 1
  else n / d + n / d % 2

/-- The exponent e with 2^e ≤ n / d < 2^(e+1), for positive n and d. -/
def binaryExponent (n d : Nat) : Int :=
  let k : Int := (Nat.log2 n : Int) - Nat.log2 d
  if d * 2 ^ k.toNat ≤ n * 2 ^ (-k).toNat then k else k - 1

/-- The pattern of the magnitude n / d without its sign: the significand is the nearest multiple of the last place of the
binade. The hidden bit carries into the exponent field. PRESUMED, safe: below 2^-126 and above the finite range this
follows IEEE 754, and no rule ever goes there (R12, log 21). -/
def magnitude32 (n d : Nat) : Nat :=
  let e := max (binaryExponent n d) (-126)
  min ((e + 126).toNat * 2 ^ 23 + roundHalfEven (n * 2 ^ (23 - e).toNat) (d * 2 ^ (e - 23).toNat)) 0x7F800000

/-- `rne32(q)`: the binary32 pattern nearest to q, ties to the even significand (R12). -/
def rne32 (q : ℚ) : Pattern32 :=
  let mag := if q.num = 0 then 0 else magnitude32 q.num.natAbs q.den
  BitVec.ofNat 32 (if q < 0 then 2 ^ 31 + mag else mag)

/-- The biased exponent field, bits 30:23 (R12). -/
def exponentField (p : Pattern32) : BitVec 8 := p.extractLsb' 23 8

/-- The fraction field, bits 22:0 (R12). -/
def fractionField (p : Pattern32) : BitVec 23 := p.extractLsb' 0 23

/-- `val32(p)`: the rational that a finite binary32 pattern stands for (R12). -/
def val32 (p : Pattern32) : ℚ :=
  let e := max (exponentField p).toNat 1
  let m := (fractionField p).toNat + if exponentField p = 0 then 0 else 2 ^ 23
  let a : ℚ := mkRat (m * 2 ^ (e - 150)) (2 ^ (150 - e))
  if p.msb then -a else a

/-- The pattern is of a finite value: its exponent field is not all ones. -/
def isFinite32 (p : Pattern32) : Bool := exponentField p != 255

/-- The Celsius formula, exact (R130). -/
def celsius (d : Raw16) : ℚ := (17572 / 100) * d.toNat / 65536 - 4685 / 100

/-- The humidity formula, exact (R133). -/
def humidity (d : Raw16) : ℚ := 125 * d.toNat / 65536 - 6

/-- CONV_TEMP_C (R131): one rounding, no clamping (R134). -/
def convTempC32 (d : Raw16) : Pattern32 := rne32 (celsius d)

/-- CONV_TEMP_F (R132): of the rounded Celsius pattern. -/
def convTempF32 (c : Pattern32) : Pattern32 := rne32 (val32 c * (9 / 5) + 32)

/-- CONV_HUM (R133): no clamping (R134). -/
def convHum32 (d : Raw16) : Pattern32 := rne32 (humidity d)

end Sys2Proof.Machine
end

