-- ==== Sys2Proof/Machine/Operands.lean ====
section
/-! DEFINITION. Operand forms and operand assembly (30_encoding.md R63 to R67, R72; 42_sequencer.md R106). -/

namespace Sys2Proof

/-- The number of a selector (R67). -/
def Selector.code : Selector → Byte
  | .softReset => 0
  | .trigTempNohold => 1
  | .trigHumNohold => 2
  | .readUserReg => 3
  | .writeUserReg => 4

/-- The selector an operand byte names; 5 to 255 name none (R67, R74). -/
def Selector.ofByte (sel : Byte) : Option Selector :=
  match sel.toNat with
  | 0 => some .softReset
  | 1 => some .trigTempNohold
  | 2 => some .trigHumNohold
  | 3 => some .readUserReg
  | 4 => some .writeUserReg
  | _ => none

/-- `sel` of R106: the command an operation looks up. -/
def GuardedOp.selector : GuardedOp → Selector
  | .init _ | .reset => .softReset
  | .rdTempC | .rdTempF => .trigTempNohold
  | .rdHum => .trigHumNohold

/-- The operation reads a frame after its delay (R106, phase DELAY). -/
def GuardedOp.measures : GuardedOp → Bool
  | .init _ | .reset => false
  | .rdTempC | .rdTempF | .rdHum => true

def GuardedOp.isInit : GuardedOp → Bool
  | .init _ => true
  | .reset | .rdTempC | .rdTempF | .rdHum => false

/-- The host operation that a guarded operation came from. -/
def GuardedOp.toInstr : GuardedOp → Instr
  | .init addr => .init (addr.setWidth 8)
  | .reset => .reset
  | .rdTempC => .rdTempC
  | .rdTempF => .rdTempF
  | .rdHum => .rdHum

/-- The guarded operation that a host operation is, if it is one (R64, column "guarded"); `ADDR[6:0]` of INIT. -/
def Instr.guarded : Instr → Option GuardedOp
  | .init addr => some (.init (addr.extractLsb' 0 7))
  | .reset => some .reset
  | .rdTempC => some .rdTempC
  | .rdTempF => some .rdTempF
  | .rdHum => some .rdHum
  | .crcValidate _ _ | .cmdLookup _ => none
  | .softReset | .trigTempNohold | .trigHumNohold | .readUserReg | .writeUserReg => none

/-- `ADDR[6:0]` (R63, R72). -/
def addrOperand (addr : Byte) : DevAddr := addr.extractLsb' 0 7

/-- `DEV_ADDR` in the transport's 8-bit address field, bit 7 always 0 (R46, C4). -/
def busAddr (a : DevAddr) : Byte := a.setWidth 8

/-- DECODE16: `(zext_16(b0) << 8) | zext_16(b1)` (R72, R128); the two status bits stay in (R129). -/
def decode16 (b0 b1 : Byte) : Raw16 := (b0.setWidth 16 <<< 8) ||| b1.setWidth 16

end Sys2Proof
end

