-- ==== Sys2Proof/Machine/Crc.lean ====
section
/-! DEFINITION. The CRC-8 validator (40_crc8.md R84 to R86): polynomial 0x31, initial value 0x00, no reflection, no final
exclusive-or (R81). -/

namespace Sys2Proof.Machine

/-- CRC.UPDATE, one byte step (R84). -/
def crcUpdate (acc b : Byte) : Byte := crcRom (acc ^^^ b)

/-- CRC.COMPUTE, the function `crc8`, for a sequence of any length (R85). -/
def crc8 (data : List Byte) : Byte := data.foldl crcUpdate 0x00#8

/-- The two bytes of a ChecksumError (R86, R144). -/
structure Mismatch where
  expected : Byte
  actual   : Byte
deriving DecidableEq, Repr

/-- CRC.VALIDATE (R86): nothing where the bytes are equal, else the error with the value handed in and the value computed. -/
def validate (data : List Byte) (expected : Byte) : Option Mismatch :=
  if crc8 data = expected then none else some ⟨expected, crc8 data⟩

end Sys2Proof.Machine
end

