-- ==== Sys2Proof/Machine/Flags.lean ====
section
/-! DEFINITION. The status register, the error registers and the response made from them (10_state.md R31, R32, R34;
30_encoding.md R65, R66). No operation writes a flag as a side effect of arithmetic. -/

namespace Sys2Proof.Machine

/-- The codes of R66. -/
def Status.code : Status → BitVec 2
  | .ok => 0
  | .transport => 1
  | .checksum => 2

/-- The codes of R25, four bits; 9 to 15 are never entered. -/
def Phase.code : Phase → BitVec 4
  | .idle => 0
  | .lookup => 1
  | .write => 2
  | .delay => 3
  | .read => 4
  | .check => 5
  | .decode => 6
  | .convert => 7
  | .respond => 8

/-- The response of the transaction in `CUR`, from `STATUS` and the registers it makes meaningful (R32, R65). -/
def responseOf (s : State) : Response :=
  match s.status with
  | .ok => if s.cur.op.measures then .okValue s.result else .ok
  | .transport => .transport s.errT
  | .checksum => .checksum s.errExpected s.errActual

/-- A 32-bit field of a response, most significant byte first (R65, R50). -/
def bigEndian32 (v : Pattern32) : List Byte :=
  [v.extractLsb' 24 8, v.extractLsb' 16 8, v.extractLsb' 8 8, v.extractLsb' 0 8]

/-- The status a response starts with (R65). -/
def Response.status : Response → Status
  | .ok | .okValue _ | .okCommand _ _ => .ok
  | .transport _ => .transport
  | .checksum _ _ => .checksum

/-- The serialised response (R65). -/
def Response.bytes (r : Response) : List Byte :=
  (r.status.code.setWidth 8) ::
    match r with
    | .ok => []
    | .okValue v => bigEndian32 v
    | .okCommand opcode delayMs => [opcode, delayMs]
    | .transport e => Config.terrBytes e
    | .checksum expected actual => [expected, actual]

/-- What ends a transaction (R108, R142). -/
inductive Ending where
  | ok
  | transportError (e : TErr)
  | checksumError (m : Mismatch)
deriving DecidableEq, Repr

/-- `STATUS` and the fields that go with it; the other error registers keep what they hold (R31, R143, R144). -/
def recordEnding (x : Ending) (s : State) : State :=
  match x with
  | .ok => { s with status := .ok }
  | .transportError e => { s with status := .transport, errT := e }
  | .checksumError m => { s with status := .checksum, errExpected := m.expected, errActual := m.actual }

end Sys2Proof.Machine
end

