-- ==== Sys2Proof/Machine/Ops.lean ====
section
/-! DEFINITION. The operations the meanings share: what is seen from outside, the guard, the ending of a transaction and
the return from it, the transport calls, the delay, and the hardware reset. -/

namespace Sys2Proof.Machine

/-- `PEND[i]` (R21). -/
def Pending.get (p : Pending) (who : Requester) : Option GuardedOp :=
  match p with
  | [] => none
  | (i, op) :: rest => if i = who then some op else Pending.get rest who

/-- `PEND[i] <- op`, in the canonical form (R21). -/
def Pending.put (p : Pending) (who : Requester) (op : GuardedOp) : Pending :=
  match p with
  | [] => [(who, op)]
  | (i, x) :: rest =>
    if who < i then (who, op) :: (i, x) :: rest
    else if who = i then (who, op) :: rest
    else (i, x) :: Pending.put rest who op

/-- `PEND[i] <- none` (R22). -/
def Pending.drop (p : Pending) (who : Requester) : Pending := p.filter fun x => x.1 != who

/-- An event is seen from outside, now. -/
def emit (e : Event) (s : State) : State := { s with trace := ⟨s.now, e⟩ :: s.trace }

/-- `PHASE <- p`, the block's only form of control transfer (R24). -/
def goto (p : Phase) (s : State) : State := { s with phase := p }

/-- The outside world goes on to the rest of what it does. -/
def inputsLeft (rest : List Input) (s : State) : State := { s with inputs := rest }

/-- `acquire(i)` of the operation `op` that requester i has pending (R22); it moves `PHASE` to LOOKUP (R105). -/
def acquire (who : Requester) (op : GuardedOp) (s : State) : State :=
  emit (.admitted ⟨op, who⟩)
    { s with lock := .held who, cur := ⟨op, who⟩, pend := s.pend.drop who, phase := .lookup }

/-- `release()` (R22). -/
def release (s : State) : State := { s with lock := .free }

/-- ENDING A TRANSACTION, the block's one way of raising its two errors and of succeeding: `Respond`, `raise TransportError`
and `raise ChecksumError` set `STATUS` and the fields that go with it, and go to RESPOND (R108, R143, R144, R151). -/
def endWith (x : Ending) (s : State) : State := goto .respond (recordEnding x s)

/-- RETURNING FROM A TRANSACTION, phase RESPOND (R106): the response to the requester in `CUR`, the guard given back on every
path, IDLE (R108). There is no other return (R154). -/
def respond (s : State) : State := goto .idle (release (emit (.response s.cur.who (responseOf s)) s))

/-- The write call of R46 goes out: one byte, the opcode, to `DEV_ADDR` (R68). -/
def startWrite (s : State) : State :=
  emit (.writeCall (busAddr s.devAddr) [s.cmdOpc]) (goto .write s)

/-- The read call of R47 goes out: three bytes from `DEV_ADDR`. -/
def startRead (s : State) : State := emit (.readCall (busAddr s.devAddr) 3) (goto .read s)

/-- The timer is loaded when the write has been answered (R157). -/
def startDelay (s : State) : State := goto .delay { s with timer := s.cmdDly.toNat * Config.usPerMs }

/-- The delay is over: at the earliest when the timer has run out, and `extra` later than that (R157, R174). -/
def endDelay (extra : Nat) (s : State) : State := { s with now := s.now + (s.timer + extra), timer := 0 }

/-- Time passes; the timer counts down to 0 and stays there (R157). -/
def passTime (us : Nat) (s : State) : State := { s with now := s.now + us, timer := s.timer - us }

/-- Three bytes of a register whose content the spec leaves open, and the counter moved on (R27, log 9). -/
def freeSample (s : State) : State :=
  { s with
    raw := ⟨Config.freeByte s.draws, Config.freeByte (s.draws + 1), Config.freeByte (s.draws + 2)⟩
    draws := s.draws + 3 }

/-- The response of a pure operation; it writes nothing else (R121). -/
def answerPure (r : Response) (s : State) : State := emit (.pureResponse s.issuer r) s

/-- The hardware reset puts the block to the values after reset and makes no bus access and no response (R164, R181). What the
outside world does, its clock and what has been seen are no part of the block (log 18). -/
def resetBlock (s : State) : State :=
  emit .hardwareReset
    { State.reset with inputs := s.inputs, now := s.now, trace := s.trace, draws := s.draws }

/-- The hardware reset is what comes next. It is asynchronous (R164): it waits for no phase. -/
def resetNext (s : State) : Bool :=
  match s.inputs with
  | .hardwareReset :: _ => true
  | _ => false

/-- The requester has an operation waiting or in progress (R21). -/
def outstanding (s : State) (who : Requester) : Bool := (s.pend.get who).isSome || s.lock == .held who

/-- An INIT is pending or in progress (R120). -/
def initOutstanding (s : State) : Bool :=
  s.pend.any (fun x => x.2.isInit) || (s.lock != .free && s.cur.op.isInit)

end Sys2Proof.Machine
end

