-- ==== Sys2Proof/Machine/Sequencer.lean ====
section
/-! DEFINITION. The command sequencer: one function per row of the phase table of 42_sequencer.md R106, and the run of a
transaction as far as the outside world's next acts let it go. -/

namespace Sys2Proof.Machine

/-- LOOKUP: the command table is read, for INIT also the address bound; then the write call goes out. -/
def phaseLookup (s : State) : State :=
  let c := cmdRom s.cur.op.selector
  startWrite
    { s with
      cmdOpc := c.opcode
      cmdDly := c.delayMs
      devAddr := match s.cur.op with
        | .init addr => addr
        | .reset | .rdTempC | .rdTempF | .rdHum => s.devAddr }

/-- WRITE is answered: DELAY, or the end with TransportError and no wait (R114). -/
def phaseWrite (a : WriteAnswer) (s : State) : State :=
  let s' := emit (.writeAnswer a) s
  match a with
  | .ok => startDelay s'
  | .err e => endWith (.transportError e) s'

/-- DELAY is over: the read call goes out, or for INIT and RESET the transaction ends well; only INIT sets `READY`. -/
def phaseDelay (extra : Nat) (s : State) : State :=
  let s' := endDelay extra s
  if s.cur.op.measures then startRead s'
  else endWith .ok { s' with ready := s.ready || s.cur.op.isInit }

/-- READ is answered: CHECK, or the end with TransportError; then `RAW` is unspecified (R115). -/
def phaseRead (a : ReadAnswer) (s : State) : State :=
  let s' := emit (.readAnswer a) s
  match a with
  | .ok f => goto .check { s' with raw := f }
  | .err e => endWith (.transportError e) (freeSample s')

/-- CHECK: the CRC of the first two bytes against the third (R90); on a mismatch the end with ChecksumError (R116). -/
def phaseCheck (s : State) : State :=
  let data := [s.raw.msb, s.raw.lsb]
  let s' := { s with crcAcc := crc8 data }
  match validate data s.raw.crc with
  | none => goto .decode s'
  | some m => endWith (.checksumError m) s'

/-- DECODE (R128). -/
def phaseDecode (s : State) : State := goto .convert { s with d := decode16 s.raw.msb s.raw.lsb }

/-- What CONVERT makes of the decoded value (R111 to R113); INIT and RESET have no such phase and leave `RESULT`. -/
def conversion (op : GuardedOp) (d : Raw16) (old : Pattern32) : Pattern32 :=
  match op with
  | .rdTempC => convTempC32 d
  | .rdTempF => convTempF32 (convTempC32 d)
  | .rdHum => convHum32 d
  | .init _ | .reset => old

/-- CONVERT. -/
def phaseConvert (s : State) : State :=
  endWith .ok { s with result := conversion s.cur.op s.d s.result }

/-- The rows of R106 but IDLE's, whose step is `acquire`. WRITE, DELAY and READ wait for the outside world and have no step until it
acts (R175). -/
def phaseStep (s : State) : Option State :=
  match s.phase with
  | .idle => none
  | .lookup => some (phaseLookup s)
  | .write =>
    match s.inputs with
    | .writeAnswered a :: rest => some (phaseWrite a (inputsLeft rest s))
    | _ => none
  | .delay =>
    match s.inputs with
    | .wake extra :: rest => some (phaseDelay extra (inputsLeft rest s))
    | _ => none
  | .read =>
    match s.inputs with
    | .readAnswered a :: rest => some (phaseRead a (inputsLeft rest s))
    | _ => none
  | .check => some (phaseCheck s)
  | .decode => some (phaseDecode s)
  | .convert => some (phaseConvert s)
  | .respond => some (respond s)

/-- One step of the sequencer where one is enabled; a hardware reset comes before it (R164, R181). -/
def sequencerStep (s : State) : Option State := if resetNext s then none else phaseStep s

/-- The sequencer runs until it is IDLE or has to wait, at most so many steps. -/
def runSequencer : Nat → State → State
  | 0, s => s
  | n + 1, s =>
    match sequencerStep s with
    | none => s
    | some s' => runSequencer n s'

/-- As far as the transaction in progress can go: after `acquire` it has at most eight steps left (R106). -/
def runTransaction (s : State) : State := runSequencer 8 s

/-- The phases of a sensor command: its bytes cross the bus (R96 to R98). -/
def Phase.onBus : Phase → Bool
  | .write | .delay | .read => true
  | .idle | .lookup | .check | .decode | .convert | .respond => false

/-- The sequencer runs while the sensor command is on the bus, at most so many steps. -/
def runCommand : Nat → State → State
  | 0, s => s
  | n + 1, s =>
    if s.phase.onBus then
      match sequencerStep s with
      | none => s
      | some s' => runCommand n s'
    else s

/-- The guard admits requester i where it is free and i has a request pending (R22). -/
def admission (who : Requester) (s : State) : Option State :=
  match s.lock, s.pend.get who with
  | .free, some op => some (acquire who op s)
  | .free, none => none
  | .held _, _ => none

/-- A guarded request enters `PEND` (R105); where the guard's next act is to admit this very requester, the transaction runs
as far as the outside world's next acts let it. -/
def call (op : GuardedOp) (s : State) : State :=
  let s1 := { s with pend := s.pend.put s.issuer op }
  match s1.inputs with
  | .grant who :: rest =>
    if who = s.issuer then
      match admission who (inputsLeft rest s1) with
      | some s2 => runTransaction s2
      | none => s1
    else s1
  | _ => s1

/-- A sensor command is carried out: the sequencer must stand in WRITE with this command loaded for an operation that selects
it (R106, log 19). -/
def carryOut (c : Selector) (s : State) : Host.Outcome State Fault Refusal :=
  if s.phase = .write ∧ s.cmdOpc = (cmdRom c).opcode ∧ s.cur.op.selector = c then .next (runCommand 3 s)
  else .refused .commandNotLoaded

end Sys2Proof.Machine
end

