-- ==== Sys2Proof/Machine/HostOps.lean ====
section
/-! DEFINITION. The guarded host operations (42_sequencer.md R109 to R113), each with the test of 42_sequencer.md R120. -/

namespace Sys2Proof.Machine

/-- A guarded operation that needs a handle: refused while `READY = 0` (R120), and where its requester still waits (R21). -/
def callReady (op : GuardedOp) (s : State) : Host.Outcome State Fault Refusal :=
  if s.ready = false then .refused .notReady
  else if outstanding s s.issuer then .refused .requesterBlocked
  else .next (call op s)

/-- INIT (R109): admissible only while `READY = 0` and while no other INIT is pending or in progress (R120). -/
def execInit (addr : Byte) (s : State) : Host.Outcome State Fault Refusal :=
  if addr.msb then .refused .illegalAddress
  else if s.ready then .refused .handleExists
  else if initOutstanding s then .refused .initOutstanding
  else if outstanding s s.issuer then .refused .requesterBlocked
  else .next (call (.init (addrOperand addr)) s)

/-- RESET (R110). -/
def execReset (s : State) : Host.Outcome State Fault Refusal := callReady .reset s

/-- RD_TEMP_C (R111). -/
def execRdTempC (s : State) : Host.Outcome State Fault Refusal := callReady .rdTempC s

/-- RD_TEMP_F (R112): one transaction, the bus accesses of RD_TEMP_C (R78). -/
def execRdTempF (s : State) : Host.Outcome State Fault Refusal := callReady .rdTempF s

/-- RD_HUM (R113). -/
def execRdHum (s : State) : Host.Outcome State Fault Refusal := callReady .rdHum s

end Sys2Proof.Machine
end

