-- ==== Sys2Proof/Machine/PureOps.lean ====
section
/-! DEFINITION. The pure host operations (40_crc8.md R87, 41_command_table.md R101): no guard, no READY, no register, no bus
(42_sequencer.md R121). -/

namespace Sys2Proof.Machine

/-- CRC_VALIDATE (R87), on an accumulator private to this evaluation (R28, C10). -/
def execCrcValidate (data : List Byte) (expected : Byte) (s : State) : Host.Outcome State Fault Refusal :=
  match validate data expected with
  | none => .next (answerPure .ok s)
  | some m => .next (answerPure (.checksum m.expected m.actual) s)

/-- CMD_LOOKUP (R101); a selector above 4 is refused (R74). -/
def execCmdLookup (sel : Byte) (s : State) : Host.Outcome State Fault Refusal :=
  match Selector.ofByte sel with
  | some c => .next (answerPure (.okCommand (cmdRom c).opcode (cmdRom c).delayMs) s)
  | none => .refused .illegalSelector

end Sys2Proof.Machine
end

