-- ==== Sys2Proof/Machine/SensorCommands.lean ====
section
/-! DEFINITION. The sensor commands (41_command_table.md R96 to R100): the lower instruction level, a byte the sequencer
sends in phase WRITE, with the delay and the read that belong to it. -/

namespace Sys2Proof.Machine

/-- SOFT_RESET (R96): writes the byte, waits at least 15 ms, reads nothing. -/
def execSoftReset (s : State) : Host.Outcome State Fault Refusal := carryOut .softReset s

/-- TRIG_TEMP_NOHOLD (R97): writes the byte, waits at least 50 ms, reads the frame. -/
def execTrigTempNohold (s : State) : Host.Outcome State Fault Refusal := carryOut .trigTempNohold s

/-- TRIG_HUM_NOHOLD (R98): writes the byte, waits at least 16 ms, reads the frame. -/
def execTrigHumNohold (s : State) : Host.Outcome State Fault Refusal := carryOut .trigHumNohold s

/-- READ_USER_REG (R99): "never executed"; the block never writes its byte to the bus (R69), and its framing is in no source
(U13, log 11). It can only be looked up, by CMD_LOOKUP. -/
def execReadUserReg (_ : State) : Host.Outcome State Fault Refusal := .refused .registerCommandNeverIssued

/-- WRITE_USER_REG (R100): "never issued"; as READ_USER_REG, and the value it would carry is in no source (log 11). -/
def execWriteUserReg (_ : State) : Host.Outcome State Fault Refusal := .refused .registerCommandNeverIssued

end Sys2Proof.Machine
end

