-- ==== Sys2Proof/Machine/Dispatch.lean ====
section
/-! DEFINITION. One arm per instruction. -/

namespace Sys2Proof.Machine

def exec (i : Instr) (s : State) : Host.Outcome State Fault Refusal :=
  match i with
  | .init addr => Sys2Proof.Machine.execInit addr s
  | .reset => Sys2Proof.Machine.execReset s
  | .rdTempC => Sys2Proof.Machine.execRdTempC s
  | .rdTempF => Sys2Proof.Machine.execRdTempF s
  | .rdHum => Sys2Proof.Machine.execRdHum s
  | .crcValidate data expected => Sys2Proof.Machine.execCrcValidate data expected s
  | .cmdLookup sel => Sys2Proof.Machine.execCmdLookup sel s
  | .softReset => Sys2Proof.Machine.execSoftReset s
  | .trigTempNohold => Sys2Proof.Machine.execTrigTempNohold s
  | .trigHumNohold => Sys2Proof.Machine.execTrigHumNohold s
  | .readUserReg => Sys2Proof.Machine.execReadUserReg s
  | .writeUserReg => Sys2Proof.Machine.execWriteUserReg s

end Sys2Proof.Machine
end

