-- ==== Sys2Proof/Machine/Fetch.lean ====
section
/-! DEFINITION. What the machine does next: a hardware reset, else the sequencer's own step, else the next act of the outside world.
The two "fetches" of the block are a request frame taken at the host port (30_encoding.md R63) and, one level down, the
command byte that the sequencer has looked up and sends (R68). -/

namespace Sys2Proof.Machine

/-- What a step is. -/
inductive Act where
  /-- Nothing is enabled: the block waits (R175, R180). -/
  | stay
  /-- An instruction runs, on this state. -/
  | run (i : Instr) (s : State)
  /-- A step of the sequencer, the guard or the environment, to this state. -/
  | moved (s : State)
  /-- The act of the outside world has no meaning. -/
  | stop (r : Refusal)
deriving DecidableEq, Repr

/-- The phases in which the block waits for the outside world; in the others it goes on by itself (R106). -/
def Phase.waits : Phase → Bool
  | .idle | .write | .delay | .read => true
  | .lookup | .check | .decode | .convert | .respond => false

/-- The request is taken at the host port, with the number of its requester (R63, R105). -/
def atPort (who : Requester) (rest : List Input) (s : State) : State := { s with inputs := rest, issuer := who }

/-- The next act of the outside world (R48, R159). -/
def nextInput (s : State) : Act :=
  match s.inputs with
  | [] => .stay
  | .request who frame :: rest =>
    match decodeFrame frame with
    | .ok i _ => .run i (atPort who rest s)
    | .bad e => .stop (.badRequest e)
  | .grant who :: rest =>
    match admission who (inputsLeft rest s) with
    | some s' => .moved s'
    | none => .stop .inputFitsNothing
  | .writeAnswered _ :: _ =>
    if s.phase = .write then
      match decodeCommand s.cmdOpc with
      | some i => .run i s
      | none => .stop .commandNotLoaded
    else .stop .inputFitsNothing
  | .wake extra :: rest =>
    if s.phase = .delay then .moved (phaseDelay extra (inputsLeft rest s)) else .stop .inputFitsNothing
  | .readAnswered a :: rest =>
    if s.phase = .read then .moved (phaseRead a (inputsLeft rest s)) else .stop .inputFitsNothing
  | .advance us :: rest => .moved (passTime us (inputsLeft rest s))
  | .hardwareReset :: rest => .moved (resetBlock (inputsLeft rest s))

/-- The sequencer's own steps, LOOKUP, CHECK, DECODE, CONVERT and RESPOND, come before the next act of the outside world (log 1),
unless that is the hardware reset, which comes at any moment (R164, R181). -/
def nextAct (s : State) : Act :=
  if s.phase.waits || resetNext s then nextInput s
  else
    match sequencerStep s with
    | some s' => .moved s'
    | none => .stay

/-- A state in which the block takes a request of the first requester next: his pending request is taken away, and where the block has
a step of its own first, or serves him, it is brought to IDLE (log 14). -/
def takingRequests (s : State) : State :=
  let s' := { s with pend := s.pend.drop .first }
  if s.phase.waits && s.lock != .held .first then s' else { s' with phase := .idle, lock := .free }

/-- A table word of a host operation is issued next by the first requester; where it is guarded, the handle
stands as its admissibility test asks (R120) and the guard's next act is to admit it (log 14). -/
def placeRequest (frame : List Byte) (i : Option Instr) (s : State) : State :=
  match i.bind Instr.guarded with
  | some op =>
    { s with
      ready := !op.isInit
      inputs := .request .first frame :: .grant .first :: s.inputs }
  | none => { s with inputs := .request .first frame :: s.inputs }

/-- The host operation under which a sensor command is placed; none selects the two register commands (R94, log 14). -/
def placingOp : Instr → GuardedOp
  | .trigTempNohold => .rdTempC
  | .trigHumNohold => .rdHum
  | .softReset | .readUserReg | .writeUserReg => .reset
  | .init _ | .reset | .rdTempC | .rdTempF | .rdHum | .crcValidate _ _ | .cmdLookup _ => .reset

/-- A table word of a sensor command is what the sequencer has loaded and sends, in phase WRITE, and the transport's next act is
to accept it (log 14). -/
def placeCommand (b : Byte) (i : Instr) (s : State) : State :=
  { phaseLookup (acquire .first (placingOp i) { s with ready := true }) with
    cmdOpc := b
    inputs := .writeAnswered .ok :: s.inputs }

/-- The state in which the very next step takes and runs the instruction of a table word. -/
def placeWord (nbits w : Nat) (s : State) : State :=
  match decodeTableWord nbits w with
  | none => placeRequest (tableFrame nbits w) none (takingRequests s)
  | some i =>
    if i.isHost then placeRequest (tableFrame nbits w) (some i) (takingRequests s)
    else placeCommand ((tableBytes nbits w).headD 0) i s

end Sys2Proof.Machine
end

