-- ==== Sys2Proof/Machine/Step.lean ====
section
/-! DEFINITION. One step of the machine, and where it takes its next instruction. -/

namespace Sys2Proof.Machine

/-- One step: an instruction where one is taken, else a phase of the sequencer or an act of the guard or the environment; where
nothing is enabled the block waits (R175, R180). -/
def step (s : State) : Host.Outcome State Fault Refusal :=
  match nextAct s with
  | .stay => .next s
  | .run i s' => exec i s'
  | .moved s' => .next s'
  | .stop r => .refused r

/-- The state whose next step takes and runs the instruction of the opcode table's word (log 14). -/
def State.withFetchWord (s : State) (nbits w : Nat) : State := placeWord nbits w s

end Sys2Proof.Machine
end

