-- ==== Sys2Proof/Safety.lean ====
section
/-! DEFINITION. What the block is held to: an observer of its visible events, written from the tables of 42_sequencer.md R119 and
70_reset_and_hazards.md R178 and not from the machine, and the invariants of its state. -/

namespace Sys2Proof.Safety

open Sys2Proof.Machine

/-- The one byte an operation may write to the bus (R119). -/
def wireByte : GuardedOp → Byte
  | .init _ | .reset => 0xFE
  | .rdTempC | .rdTempF => 0xF3
  | .rdHum => 0xF5

/-- The least time, in milliseconds, from the write's answer to the read or, for a reset, to the response (R178). -/
def leastDelayMs : GuardedOp → Nat
  | .init _ | .reset => 15
  | .rdTempC | .rdTempF => 50
  | .rdHum => 16

/-- The operation reads three bytes (R119). -/
def readsFrame : GuardedOp → Bool
  | .init _ | .reset => false
  | .rdTempC | .rdTempF | .rdHum => true

/-- The value an operation answers for a frame that passes the check (R111 to R113); an operation that reads nothing has none. -/
def valueOf (op : GuardedOp) (f : Sample) : Pattern32 :=
  match op with
  | .rdTempC => convTempC32 (decode16 f.msb f.lsb)
  | .rdTempF => convTempF32 (convTempC32 (decode16 f.msb f.lsb))
  | .rdHum => convHum32 (decode16 f.msb f.lsb)
  | .init _ | .reset => 0

/-- The response an operation owes once its frame has been read (R65, R107, R116). -/
def responseFor (op : GuardedOp) (f : Sample) : Response :=
  if crc8 [f.msb, f.lsb] = f.crc then .okValue (valueOf op f)
  else .checksum f.crc (crc8 [f.msb, f.lsb])

/-- Where the observer sees a transaction stand. -/
inductive Stage where
  | quiet
  | admitted (r : Request)
  | writeOut (r : Request)
  | settling (r : Request) (since : Nat)
  | readOut (r : Request)
  | due (r : Request) (answer : Response)
  | broken
deriving DecidableEq, Repr

/-- What the observer keeps: the address the handle was bound to, and the stage. -/
structure Watch where
  addr  : Option DevAddr
  stage : Stage
deriving DecidableEq, Repr

/-- The address bound by an admitted operation (R109). -/
def boundAddr (op : GuardedOp) (old : Option DevAddr) : Option DevAddr :=
  match op with
  | .init a => some a
  | .reset | .rdTempC | .rdTempF | .rdHum => old

/-- The observer's rule: the calls of one transaction come in the order of R119, at the bound address, with the operation's byte,
no earlier than the delay allows, followed by the one response owed, and nothing of another transaction comes between
(R55, R118, R119, R174). Pure responses may come at any time (R121); a hardware reset abandons a transaction (R181). -/
def watchNext (o : Observed) (w : Watch) : Watch :=
  match w.stage, o.event with
  | .broken, _ => w
  | _, .pureResponse _ _ => w
  | _, .hardwareReset => ⟨none, .quiet⟩
  | .quiet, .admitted r => ⟨boundAddr r.op w.addr, .admitted r⟩
  | .admitted r, .writeCall a bytes =>
    if w.addr.map busAddr = some a ∧ bytes = [wireByte r.op] then ⟨w.addr, .writeOut r⟩ else ⟨w.addr, .broken⟩
  | .writeOut r, .writeAnswer .ok => ⟨w.addr, .settling r o.time⟩
  | .writeOut r, .writeAnswer (.err e) => ⟨w.addr, .due r (.transport e)⟩
  | .settling r t, .readCall a n =>
    if readsFrame r.op ∧ w.addr.map busAddr = some a ∧ n = 3 ∧ t + leastDelayMs r.op * 1000 ≤ o.time then ⟨w.addr, .readOut r⟩
    else ⟨w.addr, .broken⟩
  | .settling r t, .response who x =>
    if readsFrame r.op = false ∧ who = r.who ∧ x = .ok ∧ t + leastDelayMs r.op * 1000 ≤ o.time then ⟨w.addr, .quiet⟩
    else ⟨w.addr, .broken⟩
  | .readOut r, .readAnswer (.ok f) => ⟨w.addr, .due r (responseFor r.op f)⟩
  | .readOut r, .readAnswer (.err e) => ⟨w.addr, .due r (.transport e)⟩
  | .due r x, .response who y => if who = r.who ∧ y = x then ⟨w.addr, .quiet⟩ else ⟨w.addr, .broken⟩
  | _, _ => ⟨w.addr, .broken⟩

/-- The observer over all that has been seen; the trace is newest first. -/
def watch (trace : List Observed) : Watch := trace.foldr watchNext ⟨none, .quiet⟩

/-- An INIT is being carried out and has not yet succeeded. -/
def initInProgress (s : State) : Prop := s.phase ≠ .idle ∧ s.phase ≠ .respond ∧ s.cur.op.isInit = true

/-- The stage the observer must see for the block to be where it is. -/
def stageFits (s : State) (g : Stage) : Prop :=
  match s.phase with
  | .idle => g = .quiet
  | .lookup => g = .admitted s.cur
  | .write => g = .writeOut s.cur
  | .delay => ∃ t, g = .settling s.cur t ∧ t + leastDelayMs s.cur.op * 1000 ≤ s.now + s.timer
  | .read => g = .readOut s.cur ∧ readsFrame s.cur.op = true
  | .check => g = .due s.cur (responseFor s.cur.op s.raw) ∧ readsFrame s.cur.op = true
  | .decode =>
    g = .due s.cur (responseFor s.cur.op s.raw) ∧ readsFrame s.cur.op = true ∧ crc8 [s.raw.msb, s.raw.lsb] = s.raw.crc
  | .convert =>
    g = .due s.cur (responseFor s.cur.op s.raw) ∧ readsFrame s.cur.op = true ∧ crc8 [s.raw.msb, s.raw.lsb] = s.raw.crc ∧
      s.d = decode16 s.raw.msb s.raw.lsb
  | .respond =>
    g = .due s.cur (responseOf s) ∨
      (∃ t, g = .settling s.cur t ∧ t + leastDelayMs s.cur.op * 1000 ≤ s.now ∧ readsFrame s.cur.op = false ∧
        responseOf s = .ok)

/-- The guard's invariant (R20): held by the requester of `CUR` exactly while the block is not IDLE. -/
def guardFits (s : State) : Prop :=
  match s.lock with
  | .free => s.phase = .idle
  | .held who => s.phase ≠ .idle ∧ s.cur.who = who

/-- The command registers hold the command of the operation in `CUR` from the end of LOOKUP on (R106). -/
def commandFits (s : State) : Prop :=
  s.phase ≠ .idle → s.phase ≠ .lookup → (⟨s.cmdOpc, s.cmdDly⟩ : Command) = cmdRom s.cur.op.selector

/-- Without a handle at most one operation is outstanding and it is an INIT; with one, no INIT waits or is under way (R19, R120). -/
structure handleFits (s : State) : Prop where
  noHandle : s.ready = false → (∀ x ∈ s.pend, x.2.isInit = true) ∧ s.pend.length ≤ 1 ∧
    (s.phase ≠ .idle → s.pend = [] ∧ s.cur.op.isInit = true)
  handle : s.ready = true → (∀ x ∈ s.pend, x.2.isInit = false) ∧ ¬ initInProgress s

/-- What every step keeps: the guard, the handle, one outstanding operation for each requester in canonical form, the loaded
command, and the agreement of the block with the observer. -/
structure Conforms (s : State) : Prop where
  guard : guardFits s
  handle : handleFits s
  pendWf : Pending.wf s.pend
  oneEach : ∀ who, s.lock = .held who → s.pend.get who = none
  command : commandFits s
  stage : stageFits s (watch s.trace).stage
  addr : s.ready = true ∨ (s.phase ≠ .idle ∧ s.phase ≠ .lookup) → (watch s.trace).addr = some s.devAddr
  bound : s.phase = .lookup → ∀ a, s.cur.op = .init a → (watch s.trace).addr = some a

/-! ## When an operation runs, and what it leaves -/

/-- A guarded operation may be issued here (R120). -/
def admissible (op : GuardedOp) (s : State) : Prop :=
  match op with
  | .init _ => s.ready = false ∧ initOutstanding s = false
  | .reset | .rdTempC | .rdTempF | .rdHum => s.ready = true

/-- The block is IDLE with the guard free, and the requester at the port has nothing waiting. -/
structure quietFor (s : State) : Prop where
  idle : s.phase = .idle
  free : s.lock = .free
  none : s.pend.get s.issuer = none

/-- The address a transaction of this operation uses (R109). -/
def addrOf (op : GuardedOp) (s : State) : DevAddr :=
  match op with
  | .init a => a
  | .reset | .rdTempC | .rdTempF | .rdHum => s.devAddr

/-- The registers a transaction has written when its write call is on the bus, at the requester that stands at the port. -/
def withCommandSent (op : GuardedOp) (opcode delayMs : Byte) (s : State) : State :=
  { s with
    cur := ⟨op, s.issuer⟩
    devAddr := addrOf op s
    cmdOpc := opcode
    cmdDly := delayMs
    trace :=
      ⟨s.now, .writeCall (busAddr (addrOf op s)) [opcode]⟩ :: ⟨s.now, .admitted ⟨op, s.issuer⟩⟩ :: s.trace }

/-- After that: the write accepted and the delay over, `extra` microseconds after the earliest moment. -/
def withDelayOver (op : GuardedOp) (opcode delayMs : Byte) (extra : Nat) (s : State) : State :=
  { withCommandSent op opcode delayMs s with
    timer := 0
    now := s.now + (delayMs.toNat * 1000 + extra)
    trace := ⟨s.now, .writeAnswer .ok⟩ :: (withCommandSent op opcode delayMs s).trace }

/-- After that: the read call made and a frame read, checked and its CRC kept. -/
def withFrameRead (op : GuardedOp) (opcode delayMs : Byte) (extra : Nat) (f : Sample) (s : State) : State :=
  { withDelayOver op opcode delayMs extra s with
    raw := f
    crcAcc := crc8 [f.msb, f.lsb]
    trace :=
      ⟨s.now + (delayMs.toNat * 1000 + extra), .readAnswer (.ok f)⟩ ::
        ⟨s.now + (delayMs.toNat * 1000 + extra), .readCall (busAddr (addrOf op s)) 3⟩ ::
          (withDelayOver op opcode delayMs extra s).trace }

/-- The response is sent, the rest of the inputs is left. -/
def withResponse (x : Response) (rest : List Input) (s : State) : State :=
  { s with inputs := rest, trace := ⟨s.now, .response s.cur.who x⟩ :: s.trace }

/-- The transport calls and their answers, without the times and without what is not on the bus. -/
def busEvents (trace : List Observed) : List Event :=
  (trace.map Observed.event).filter fun e =>
    match e with
    | .writeCall _ _ | .writeAnswer _ | .readCall _ _ | .readAnswer _ => true
    | .admitted _ | .response _ _ | .pureResponse _ _ | .hardwareReset => false

/-! ## Renaming transport errors -/

def WriteAnswer.mapErr (f : TErr → TErr) : WriteAnswer → WriteAnswer
  | .ok => .ok
  | .err e => .err (f e)

def ReadAnswer.mapErr (f : TErr → TErr) : ReadAnswer → ReadAnswer
  | .ok x => .ok x
  | .err e => .err (f e)

def Input.mapErr (f : TErr → TErr) : Input → Input
  | .writeAnswered a => .writeAnswered (WriteAnswer.mapErr f a)
  | .readAnswered a => .readAnswered (ReadAnswer.mapErr f a)
  | .request who frame => .request who frame
  | .grant who => .grant who
  | .wake extra => .wake extra
  | .advance us => .advance us
  | .hardwareReset => .hardwareReset

def Response.mapErr (f : TErr → TErr) : Response → Response
  | .transport e => .transport (f e)
  | .ok => .ok
  | .okValue v => .okValue v
  | .okCommand o d => .okCommand o d
  | .checksum x a => .checksum x a

def Event.mapErr (f : TErr → TErr) : Event → Event
  | .writeAnswer a => .writeAnswer (WriteAnswer.mapErr f a)
  | .readAnswer a => .readAnswer (ReadAnswer.mapErr f a)
  | .response who r => .response who (Response.mapErr f r)
  | .pureResponse who r => .pureResponse who (Response.mapErr f r)
  | .admitted r => .admitted r
  | .writeCall a b => .writeCall a b
  | .readCall a n => .readCall a n
  | .hardwareReset => .hardwareReset

/-- The same state with every transport error renamed: in the register, in what the transport will answer and in what has
been seen. -/
def renameErrors (f : TErr → TErr) (s : State) : State :=
  { s with
    errT := f s.errT
    inputs := s.inputs.map (Input.mapErr f)
    trace := s.trace.map fun o => ⟨o.time, Event.mapErr f o.event⟩ }

end Sys2Proof.Safety
end

