-- ==== Sys2Proof/Certificates/Slice0/Obligations.lean ====
section
/-! DEFINITION. The statements about the model that the provers settle. Each docstring names the rules of spec/ it rests on. -/

open Sys2Proof Sys2Proof.Machine Sys2Proof.Safety

/-! ## Encoding -/

/-- R64, R69: words written out from the tables decode to the instructions they stand for. -/
def Obligations.WrittenOutWordsDecode : Prop :=
  decodeFrame [0b00000000#8, 0b01000000#8] = .ok (.init 0x40) [] ∧
  decodeFrame [0b00000001#8] = .ok .reset [] ∧
  decodeFrame [0b00000010#8] = .ok .rdTempC [] ∧
  decodeFrame [0b00000011#8] = .ok .rdTempF [] ∧
  decodeFrame [0b00000100#8] = .ok .rdHum [] ∧
  decodeFrame [0b00000101#8, 0x02#8, 0x68#8, 0x3A#8, 0x7C#8] = .ok (.crcValidate [0x68, 0x3A] 0x7C) [] ∧
  decodeFrame [0b00000110#8, 0x01#8] = .ok (.cmdLookup 1) [] ∧
  decodeCommand 0b11111110#8 = some .softReset ∧
  decodeCommand 0b11110011#8 = some .trigTempNohold ∧
  decodeCommand 0b11110101#8 = some .trigHumNohold

/-- R63, R64: a well-formed host request, encoded and followed by anything, is decoded to itself and what follows. -/
def Obligations.HostRequestsSurviveEncoding : Prop :=
  ∀ (i : Instr) (rest : List Byte), i.isHost = true → i.wf = true → decodeRequest (encode i ++ rest) = .ok i rest

/-- R63, R64, R73, R74: what the decoder accepts is a well-formed host operation, and the bytes it took are that operation's
encoding: each request has one spelling. -/
def Obligations.AcceptedRequestsAreEncodings : Prop :=
  ∀ (bytes rest : List Byte) (i : Instr), decodeRequest bytes = .ok i rest →
    i.isHost = true ∧ i.wf = true ∧ bytes = encode i ++ rest

/-- R69, R99, R100: a sensor command's byte is decoded to the command, whatever values the two open opcodes have, as long as the
five bytes differ. -/
def Obligations.CommandBytesSurviveEncoding : Prop :=
  ∀ (readOpc writeOpc b : Byte) (i : Instr), [0xFE#8, 0xF3#8, 0xF5#8, readOpc, writeOpc].Nodup → i.isHost = false →
    (encodeWith readOpc writeOpc i = [b] ↔ decodeCommandWith readOpc writeOpc b = some i)

/-- R73, R74: a request with a reserved operation code, an INIT with address bit 7 set and a lookup of a selector above 4 are
refused when they are taken, in every state in which the block takes a request; and every length, data and expected byte of a
CRC_VALIDATE are legal. -/
def Obligations.MeaninglessRequestsAreRefused : Prop :=
  (∀ (s : State) (who : Requester) (op operand : Byte) (tail : List Byte) (rest : List Input), s.phase.waits = true →
    (s.inputs = .request who (op :: tail) :: rest → 7 ≤ op.toNat →
      step s = .refused (.badRequest (.reservedOperation op))) ∧
    (s.inputs = .request who (0x00 :: operand :: tail) :: rest → operand.msb = true →
      step s = .refused (.badRequest .addressBit7)) ∧
    (s.inputs = .request who (0x06 :: operand :: tail) :: rest → 5 ≤ operand.toNat →
      step s = .refused (.badRequest .selectorAbove4))) ∧
  (∀ (len : Byte) (data : List Byte) (expected : Byte), data.length = len.toNat →
    decodeFrame (0x05 :: len :: (data ++ [expected])) = .ok (.crcValidate data expected) [])

/-! ## Steps run instructions -/

/-- R63, R105: in a state in which the block waits, a frame at the host port that decodes to an instruction runs that instruction,
with the frame taken and its requester at the port. -/
def Obligations.StepRunsTheDecodedRequest : Prop :=
  ∀ (s : State) (who : Requester) (frame : List Byte) (rest : List Input) (i : Instr), s.phase.waits = true →
    s.inputs = .request who frame :: rest → decodeFrame frame = .ok i [] →
      step s = exec i { s with inputs := rest, issuer := who }

/-- R106: in phase WRITE, when the transport answers, the command byte in `CMD_OPC` is decoded and that command runs. -/
def Obligations.StepRunsTheLoadedCommand : Prop :=
  ∀ (s : State) (a : WriteAnswer) (rest : List Input) (i : Instr), s.phase = .write →
    s.inputs = .writeAnswered a :: rest → decodeCommand s.cmdOpc = some i → step s = exec i s

/-! ## CRC-8 -/

/-- R83: the table the block holds is the one that R82's loop generates, with the four spot checks, and a permutation. -/
def Obligations.TableIsTheGeneratedOne : Prop :=
  (∀ i : Byte, crcRom i = crcLoop i) ∧
  crcRom 0x00 = 0x00 ∧ crcRom 0x01 = 0x31 ∧ crcRom 0x80 = 0x7A ∧ crcRom 0xFF = 0xAC ∧
  Function.Bijective crcRom

/-- R85: the checksum function, for sequences of every length: it starts from 0, each byte goes through the table, and it has the
corner cases of the rule: leading zeros, a sequence's own checksum appended, linearity, and the worked example. -/
def Obligations.ChecksumFunction : Prop :=
  crc8 [] = 0x00 ∧
  (∀ (data : List Byte) (b : Byte), crc8 (data ++ [b]) = crcRom (crc8 data ^^^ b)) ∧
  (∀ b : Byte, crc8 [b] = crcRom b) ∧
  (∀ data : List Byte, crc8 (0x00 :: data) = crc8 data) ∧
  crc8 [0x00, 0x00] = 0x00 ∧
  (∀ data : List Byte, crc8 (data ++ [crc8 data]) = 0x00) ∧
  (∀ data other : List Byte, data.length = other.length →
    crc8 (List.zipWith (· ^^^ ·) data other) = crc8 data ^^^ crc8 other) ∧
  crc8 [0x7C, 0xA7] = 0xE4

/-- Derived from R83 (the table is a permutation): two sequences that differ in exactly one byte never have the same checksum. -/
def Obligations.OneWrongByteIsAlwaysCaught : Prop :=
  ∀ (before after : List Byte) (b c : Byte), b ≠ c → crc8 (before ++ b :: after) ≠ crc8 (before ++ c :: after)

/-- R87, R88: CRC_VALIDATE completes in every state, for data of every length: status OK where the checksum is the expected byte,
else the checksum error with both bytes; it writes nothing but its response. Its frame is `OP` 0x05, the length, the data and the
expected byte. -/
def Obligations.CrcValidateAnswers : Prop :=
  ∀ (s : State) (data : List Byte) (expected : Byte),
    (crc8 data = expected →
      exec (.crcValidate data expected) s = .next { s with trace := ⟨s.now, .pureResponse s.issuer .ok⟩ :: s.trace }) ∧
    (crc8 data ≠ expected →
      exec (.crcValidate data expected) s = .next
        { s with trace := ⟨s.now, .pureResponse s.issuer (.checksum expected (crc8 data))⟩ :: s.trace }) ∧
    (∀ len : Byte, data.length = len.toNat →
      decodeFrame (0x05 :: len :: (data ++ [expected])) = .ok (.crcValidate data expected) [])

/-! ## Command table -/

/-- R101 with the table of R94: CMD_LOOKUP completes in every state with the pair of the table and writes nothing but its response;
a selector above 4 is refused, not answered. Its frame is `OP` 0x06 and the selector. -/
def Obligations.CmdLookupAnswers : Prop :=
  ∀ s : State,
    let answers (sel opcode delayMs : Byte) : Prop :=
      exec (.cmdLookup sel) s = .next { s with trace := ⟨s.now, .pureResponse s.issuer (.okCommand opcode delayMs)⟩ :: s.trace }
    answers 0 0xFE 15 ∧ answers 1 0xF3 50 ∧ answers 2 0xF5 16 ∧
    answers 3 Config.opcReadUserReg 0 ∧ answers 4 Config.opcWriteUserReg 0 ∧
    ∀ sel : Byte,
      (sel.toNat ≤ 4 → decodeFrame [0x06, sel] = .ok (.cmdLookup sel) []) ∧
      (5 ≤ sel.toNat → decodeFrame [0x06, sel] = .bad .selectorAbove4 ∧ exec (.cmdLookup sel) s = .refused .illegalSelector)

/-! ## Converter -/

/-- R128: the decode is 256 times the first byte plus the second; it is a bijection, and swapping two different bytes changes
the value. -/
def Obligations.DecodeIsBigEndian : Prop :=
  (∀ b0 b1 : Byte, (decode16 b0 b1).toNat = 256 * b0.toNat + b1.toNat) ∧
  Function.Bijective (fun p : Byte × Byte => decode16 p.1 p.2) ∧
  (∀ b0 b1 : Byte, b0 ≠ b1 → decode16 b1 b0 ≠ decode16 b0 b1) ∧
  decode16 0x7C 0xA7 = 31911

/-- R12: in the range of R12 `rne32` gives a finite value with none nearer, and of two equally near the one with the even
significand. -/
def Obligations.RoundingIsToNearestEven : Prop :=
  ∀ q : ℚ, 1 / 2 ^ 14 ≤ |q| → |q| < 2 ^ 9 →
    isFinite32 (rne32 q) = true ∧
    ∀ p : Pattern32, isFinite32 p = true →
      |val32 (rne32 q) - q| ≤ |val32 p - q| ∧
      (|val32 p - q| = |val32 (rne32 q) - q| → val32 p ≠ val32 (rne32 q) → (rne32 q).getLsbD 0 = false)

/-- R131, R132, R133: the patterns of the corner cases and of the worked examples (V4.1, V4.7, V4.8, V4.13, V4.14, V4.16). -/
def Obligations.ConversionsOfTheWorkedExamples : Prop :=
  convTempC32 0 = 0xC23B6666 ∧ convTempC32 0xFFFF = 0x4300DE09 ∧ convTempC32 17473 = 0xB8C147AE ∧
  convTempC32 31911 = 0x421AD93D ∧ convTempF32 0x421AD93D = 0x42CB5D1D ∧
  convTempC32 14158 = 0xC10E375D ∧ convTempF32 0xC10E375D = 0x41800160 ∧
  convHum32 0 = 0xC0C00000 ∧ convHum32 0xFFFF = 0x42EDFF06 ∧ convHum32 3146 = 0x3A080000 ∧
  convHum32 3145 = 0xBAB60000 ∧ convHum32 0x8000 = 0x42620000

/-- R133: the humidity pattern is exact for every raw value: the rounding never changes the value. -/
def Obligations.HumidityIsExact : Prop :=
  ∀ d : Raw16, val32 (convHum32 d) = 125 * d.toNat / 65536 - 6

/-- R136: the two exact formulas are strictly increasing, and a larger raw value never gives an equal or smaller result in any of the
three conversions. -/
def Obligations.ConversionsStrictlyIncrease : Prop :=
  ∀ d e : Raw16, d.toNat < e.toNat →
    celsius d < celsius e ∧ humidity d < humidity e ∧
    val32 (convTempC32 d) < val32 (convTempC32 e) ∧
    val32 (convTempF32 (convTempC32 d)) < val32 (convTempF32 (convTempC32 e)) ∧
    val32 (convHum32 d) < val32 (convHum32 e)

/-- R139: every result is a normal binary32 number of magnitude between 2^-14 and 2^9: no zero, subnormal, infinity or NaN. -/
def Obligations.ResultsAreNormalNumbers : Prop :=
  ∀ d : Raw16, ∀ p ∈ [convTempC32 d, convTempF32 (convTempC32 d), convHum32 d],
    isFinite32 p = true ∧ exponentField p ≠ 0 ∧ 1 / 2 ^ 14 ≤ |val32 p| ∧ |val32 p| ≤ 2 ^ 9

/-- Derived from R130, R132, R138: how near the temperatures are to the formulas over the rationals. -/
def Obligations.TemperaturesAreNearTheFormulas : Prop :=
  ∀ d : Raw16,
    |val32 (convTempC32 d) - (175.72 * d.toNat / 65536 - 46.85)| ≤ 1 / 2 ^ 17 ∧
    |val32 (convTempF32 (convTempC32 d)) - (val32 (convTempC32 d) * 1.8 + 32)| ≤ 1 / 2 ^ 16

/-! ## Host operations on the successful path -/

/-- R109: INIT on a block without a handle, its write accepted: the address bound, 0xFE written to it, at least 15 ms waited, no
read, `READY` set, status OK; nothing else changed. -/
def Obligations.InitBindsTheAddressAndMakesReady : Prop :=
  ∀ (s : State) (addr : Byte) (extra : Nat) (rest : List Input),
    addr.msb = false → s.ready = false → initOutstanding s = false → quietFor s →
    s.inputs = .grant s.issuer :: .writeAnswered .ok :: .wake extra :: rest → rest.head? ≠ some .hardwareReset →
      exec (.init addr) s = .next
        (withResponse .ok rest
          { withDelayOver (.init (addr.extractLsb' 0 7)) 0xFE 15 extra s with ready := true, status := .ok })

/-- R110: RESET with a handle, its write accepted: 0xFE written, at least 15 ms waited, no read, status OK; `READY` and `DEV_ADDR`
kept, nothing else changed. -/
def Obligations.ResetWritesWaitsAndReadsNothing : Prop :=
  ∀ (s : State) (extra : Nat) (rest : List Input), s.ready = true → quietFor s →
    s.inputs = .grant s.issuer :: .writeAnswered .ok :: .wake extra :: rest → rest.head? ≠ some .hardwareReset →
      exec .reset s = .next (withResponse .ok rest { withDelayOver .reset 0xFE 15 extra s with status := .ok })

/-- R111: RD_TEMP_C, the calls answered and the frame's check passed: 0xF3 written, at least 50 ms waited, three bytes read, the
Celsius pattern of the decoded value answered; nothing else changed. -/
def Obligations.CelsiusReadingAnswersTheConvertedFrame : Prop :=
  ∀ (s : State) (f : Sample) (extra : Nat) (rest : List Input), s.ready = true → quietFor s →
    s.inputs = .grant s.issuer :: .writeAnswered .ok :: .wake extra :: .readAnswered (.ok f) :: rest → rest.head? ≠ some .hardwareReset →
    crc8 [f.msb, f.lsb] = f.crc →
      let v := convTempC32 (decode16 f.msb f.lsb)
      exec .rdTempC s = .next
        (withResponse (.okValue v) rest
          { withFrameRead .rdTempC 0xF3 50 extra f s with d := decode16 f.msb f.lsb, result := v, status := .ok })

/-- R112: RD_TEMP_F: the calls of RD_TEMP_C, and the Fahrenheit pattern of the rounded Celsius pattern answered. -/
def Obligations.FahrenheitReadingConvertsTheRoundedCelsius : Prop :=
  ∀ (s : State) (f : Sample) (extra : Nat) (rest : List Input), s.ready = true → quietFor s →
    s.inputs = .grant s.issuer :: .writeAnswered .ok :: .wake extra :: .readAnswered (.ok f) :: rest → rest.head? ≠ some .hardwareReset →
    crc8 [f.msb, f.lsb] = f.crc →
      let v := convTempF32 (convTempC32 (decode16 f.msb f.lsb))
      exec .rdTempF s = .next
        (withResponse (.okValue v) rest
          { withFrameRead .rdTempF 0xF3 50 extra f s with d := decode16 f.msb f.lsb, result := v, status := .ok })

/-- R113: RD_HUM: 0xF5 written, at least 16 ms waited, three bytes read, the humidity pattern answered, not clamped. -/
def Obligations.HumidityReadingAnswersTheConvertedFrame : Prop :=
  ∀ (s : State) (f : Sample) (extra : Nat) (rest : List Input), s.ready = true → quietFor s →
    s.inputs = .grant s.issuer :: .writeAnswered .ok :: .wake extra :: .readAnswered (.ok f) :: rest → rest.head? ≠ some .hardwareReset →
    crc8 [f.msb, f.lsb] = f.crc →
      let v := convHum32 (decode16 f.msb f.lsb)
      exec .rdHum s = .next
        (withResponse (.okValue v) rest
          { withFrameRead .rdHum 0xF5 16 extra f s with d := decode16 f.msb f.lsb, result := v, status := .ok })

/-! ## Failure paths -/

/-- R114: where the transport refuses the write, each of the five guarded operations ends at once with that error: no delay, no read,
the guard given back, `READY` as it was. -/
def Obligations.WriteFailureEndsTheOperationAtOnce : Prop :=
  ∀ (s : State) (op : GuardedOp) (e : TErr) (rest : List Input), admissible op s → quietFor s →
    s.inputs = .grant s.issuer :: .writeAnswered (.err e) :: rest → rest.head? ≠ some .hardwareReset →
      let sent := withCommandSent op (wireByte op) (BitVec.ofNat 8 (leastDelayMs op)) s
      exec op.toInstr s = .next
        (withResponse (.transport e) rest
          { sent with status := .transport, errT := e, trace := ⟨s.now, .writeAnswer (.err e)⟩ :: sent.trace })

/-- R115: where the transport fails the read, a measurement ends with that error: neither `D` nor `RESULT` nor `CRC_ACC` is written. `RAW`
is left open by the rule, so the statement says nothing of it. -/
def Obligations.ReadFailureEndsTheMeasurement : Prop :=
  ∀ (s : State) (op : GuardedOp) (e : TErr) (extra : Nat) (rest : List Input), readsFrame op = true → s.ready = true →
    quietFor s →
    s.inputs = .grant s.issuer :: .writeAnswered .ok :: .wake extra :: .readAnswered (.err e) :: rest → rest.head? ≠ some .hardwareReset →
      let waited := withDelayOver op (wireByte op) (BitVec.ofNat 8 (leastDelayMs op)) extra s
      ∃ t : State, exec op.toInstr s = .next t ∧
        t = withResponse (.transport e) rest
          { waited with
            status := .transport
            errT := e
            raw := t.raw
            draws := t.draws
            trace := ⟨waited.now, .readAnswer (.err e)⟩ :: ⟨waited.now, .readCall (busAddr s.devAddr) 3⟩ :: waited.trace }

/-- R116: where the frame fails its check, a measurement ends with the checksum error, the byte read and the byte computed; neither `D` nor
`RESULT` is written. -/
def Obligations.CheckFailureEndsTheMeasurement : Prop :=
  ∀ (s : State) (op : GuardedOp) (f : Sample) (extra : Nat) (rest : List Input), readsFrame op = true → s.ready = true →
    quietFor s →
    s.inputs = .grant s.issuer :: .writeAnswered .ok :: .wake extra :: .readAnswered (.ok f) :: rest → rest.head? ≠ some .hardwareReset →
    crc8 [f.msb, f.lsb] ≠ f.crc →
      exec op.toInstr s = .next
        (withResponse (.checksum f.crc (crc8 [f.msb, f.lsb])) rest
          { withFrameRead op (wireByte op) (BitVec.ofNat 8 (leastDelayMs op)) extra f s with
            status := .checksum
            errExpected := f.crc
            errActual := crc8 [f.msb, f.lsb] })

/-- R120: the operations that need a handle are refused without one, INIT is refused with one, and INIT is refused while another is
outstanding. -/
def Obligations.InadmissibleRequestsAreRefused : Prop :=
  ∀ s : State,
    (s.ready = false → ∀ i ∈ [Instr.reset, .rdTempC, .rdTempF, .rdHum], exec i s = .refused .notReady) ∧
    (s.ready = true → ∀ addr : Byte, addr.msb = false → exec (.init addr) s = .refused .handleExists) ∧
    (s.ready = false → initOutstanding s = true → ∀ addr : Byte, addr.msb = false →
      exec (.init addr) s = .refused .initOutstanding)

/-- R22, R105: while another requester holds the guard, or the guard is not given to this requester next, an admissible request only
enters `PEND`; it is not refused and not answered. -/
def Obligations.RequestWaitsForTheGuard : Prop :=
  ∀ (s : State) (op : GuardedOp), admissible op s → s.pend.get s.issuer = none → s.lock ≠ .held s.issuer →
    (∃ other, s.lock = .held other) ∨ s.inputs.head? ≠ some (.grant s.issuer) →
      ∃ t : State, exec op.toInstr s = .next t ∧ t = { s with pend := t.pend } ∧
        t.pend.get s.issuer = some op ∧ ∀ who, who ≠ s.issuer → t.pend.get who = s.pend.get who

/-- R22, R105: whichever requester the guard's choice falls on, its pending request is admitted: guard taken, `CUR` written, `PEND` of that
requester cleared and of no other, LOOKUP next. -/
def Obligations.AnyPendingRequestMayBeAdmitted : Prop :=
  ∀ (s : State) (who : Requester) (op : GuardedOp) (rest : List Input), s.phase = .idle → s.lock = .free →
    s.inputs = .grant who :: rest → s.pend.get who = some op →
      ∃ t : State, step s = .next t ∧
        t = { s with
              lock := .held who
              cur := ⟨op, who⟩
              phase := .lookup
              inputs := rest
              pend := t.pend
              trace := ⟨s.now, .admitted ⟨op, who⟩⟩ :: s.trace } ∧
        t.pend.get who = none ∧ ∀ other, other ≠ who → t.pend.get other = s.pend.get other

/-! ## Sensor commands -/

/-- R96: SOFT_RESET, accepted by the transport: the timer is loaded with 15 ms and the block stands in DELAY; where the delay's end is
already next, at least 15 ms have been waited, nothing is read, and the operation under way ends well, INIT with `READY` set. -/
def Obligations.SoftResetWaitsAndReadsNothing : Prop :=
  ∀ (s : State) (rest : List Input), s.phase = .write → s.cmdOpc = 0xFE → s.cmdDly = 15 → s.cur.op.selector = .softReset →
    (s.inputs = .writeAnswered .ok :: rest → (∀ extra, rest.head? ≠ some (.wake extra)) →
      exec .softReset s = .next
        { s with
          phase := .delay
          timer := 15000
          inputs := rest
          trace := ⟨s.now, .writeAnswer .ok⟩ :: s.trace }) ∧
    (∀ extra : Nat, s.inputs = .writeAnswered .ok :: .wake extra :: rest →
      exec .softReset s = .next
        { s with
          phase := .respond
          status := .ok
          ready := s.ready || s.cur.op.isInit
          timer := 0
          now := s.now + (15000 + extra)
          inputs := rest
          trace := ⟨s.now, .writeAnswer .ok⟩ :: s.trace })

/-- R97, R98: a trigger, accepted by the transport, as far as the next acts of the outside world go: the timer is loaded with its
delay; the delay is waited and the read of three bytes from `DEV_ADDR` goes out; the frame is taken and the check is next, or the
transport's error ends the operation (then `RAW` is open, and nothing is said of it). -/
def Obligations.TriggersWaitAndReadTheFrame : Prop :=
  ∀ (s : State) (rest : List Input) (i : Instr) (sel : Selector) (opcode delayMs : Byte),
    (i, sel, opcode, delayMs) ∈
      [(Instr.trigTempNohold, Selector.trigTempNohold, 0xF3#8, 50#8), (.trigHumNohold, .trigHumNohold, 0xF5#8, 16#8)] →
    s.phase = .write → s.cmdOpc = opcode → s.cmdDly = delayMs → s.cur.op.selector = sel →
      let accepted : State := { s with trace := ⟨s.now, .writeAnswer .ok⟩ :: s.trace }
      let readOut (extra : Nat) : State :=
        { accepted with
          phase := .read
          timer := 0
          now := s.now + (delayMs.toNat * 1000 + extra)
          trace := ⟨s.now + (delayMs.toNat * 1000 + extra), .readCall (busAddr s.devAddr) 3⟩ :: accepted.trace }
      (s.inputs = .writeAnswered .ok :: rest → (∀ extra, rest.head? ≠ some (.wake extra)) →
        exec i s = .next { accepted with phase := .delay, timer := delayMs.toNat * 1000, inputs := rest }) ∧
      (∀ extra : Nat, s.inputs = .writeAnswered .ok :: .wake extra :: rest →
        (∀ answer, rest.head? ≠ some (.readAnswered answer)) →
          exec i s = .next { readOut extra with inputs := rest }) ∧
      (∀ (extra : Nat) (f : Sample), s.inputs = .writeAnswered .ok :: .wake extra :: .readAnswered (.ok f) :: rest →
        exec i s = .next
          { readOut extra with
            phase := .check
            raw := f
            inputs := rest
            trace := ⟨(readOut extra).now, .readAnswer (.ok f)⟩ :: (readOut extra).trace }) ∧
      (∀ (extra : Nat) (e : TErr), s.inputs = .writeAnswered .ok :: .wake extra :: .readAnswered (.err e) :: rest →
        ∃ t : State, exec i s = .next t ∧
          t = { readOut extra with
                phase := .respond
                status := .transport
                errT := e
                raw := t.raw
                draws := t.draws
                inputs := rest
                trace := ⟨(readOut extra).now, .readAnswer (.err e)⟩ :: (readOut extra).trace })

/-- R96, R97, R98, R114: a command the transport refuses ends the operation under way with that error, at once. -/
def Obligations.RefusedCommandEndsTheOperation : Prop :=
  ∀ (s : State) (e : TErr) (rest : List Input) (i : Instr) (sel : Selector), s.phase = .write →
    (i, sel) ∈ [(Instr.softReset, Selector.softReset), (.trigTempNohold, .trigTempNohold), (.trigHumNohold, .trigHumNohold)] →
    s.cmdOpc = (cmdRom sel).opcode → s.cur.op.selector = sel → s.inputs = .writeAnswered (.err e) :: rest →
      exec i s = .next
        { s with
          phase := .respond
          status := .transport
          errT := e
          inputs := rest
          trace := ⟨s.now, .writeAnswer (.err e)⟩ :: s.trace }

/-- R99, R100: the two register commands are never executed: the model refuses them in every state. -/
def Obligations.RegisterCommandsAreNeverIssued : Prop :=
  ∀ s : State, exec .readUserReg s = .refused .registerCommandNeverIssued ∧
    exec .writeUserReg s = .refused .registerCommandNeverIssued

/-! ## The phase table, the delay, the guard -/

/-- R106: the rows of the phase table that need nothing from outside, each as one step of the machine, with everything they leave;
a hardware reset would come before them. -/
def Obligations.OwnPhasesFollowTheTable : Prop :=
  ∀ s : State, s.inputs.head? ≠ some .hardwareReset →
    (s.phase = .lookup → step s = .next
      { s with
        cmdOpc := wireByte s.cur.op
        cmdDly := BitVec.ofNat 8 (leastDelayMs s.cur.op)
        devAddr := addrOf s.cur.op s
        phase := .write
        trace := ⟨s.now, .writeCall (busAddr (addrOf s.cur.op s)) [wireByte s.cur.op]⟩ :: s.trace }) ∧
    (s.phase = .check → crc8 [s.raw.msb, s.raw.lsb] = s.raw.crc → step s = .next
      { s with crcAcc := s.raw.crc, phase := .decode }) ∧
    (s.phase = .check → crc8 [s.raw.msb, s.raw.lsb] ≠ s.raw.crc → step s = .next
      { s with
        crcAcc := crc8 [s.raw.msb, s.raw.lsb]
        status := .checksum
        errExpected := s.raw.crc
        errActual := crc8 [s.raw.msb, s.raw.lsb]
        phase := .respond }) ∧
    (s.phase = .decode → step s = .next { s with d := decode16 s.raw.msb s.raw.lsb, phase := .convert }) ∧
    (s.phase = .convert →
      ∀ x ∈ [(GuardedOp.rdTempC, convTempC32 s.d), (.rdTempF, convTempF32 (convTempC32 s.d)), (.rdHum, convHum32 s.d)],
        s.cur.op = x.1 → step s = .next { s with result := x.2, status := .ok, phase := .respond }) ∧
    (s.phase = .respond → step s = .next
      { s with
        lock := .free
        phase := .idle
        trace := ⟨s.now, .response s.cur.who (responseOf s)⟩ :: s.trace })

/-- R106: whatever the outside world has lined up, a transaction run on from any phase stops only where it is IDLE, has to wait or
is reset: it has no step left after eight. -/
def Obligations.TransactionsEndAfterAtMostEightSteps : Prop :=
  ∀ s : State, sequencerStep (runTransaction s) = none ∧
    ((runTransaction s).phase.waits = true ∨ (runTransaction s).inputs.head? = some .hardwareReset)

/-- R174, R157: while a transaction is in DELAY and no hardware reset comes, it leaves DELAY only by letting at least what is left on the timer
pass; and the timer has been loaded with the command's delay when the write was answered. -/
def Obligations.DelayIsNeverShort : Prop :=
  ∀ s t : State, step s = .next t → (∃ who, s.lock = .held who) → s.inputs.head? ≠ some .hardwareReset →
    (s.phase = .delay → (t.phase = .delay ∧ s.now + s.timer ≤ t.now + t.timer) ∨ s.now + s.timer ≤ t.now) ∧
    (s.phase = .write → t.phase = .delay → t.now + t.timer = s.now + s.cmdDly.toNat * 1000)

/-- R175: where the transport does not answer, the transaction goes no further and the guard stays taken, whatever else comes, short of
a hardware reset. -/
def Obligations.SilentTransportHoldsTheGuard : Prop :=
  ∀ s t : State, step s = .next t → s.phase = .write ∨ s.phase = .read → (∃ who, s.lock = .held who) →
    (∀ a, s.inputs.head? ≠ some (.writeAnswered a)) → (∀ a, s.inputs.head? ≠ some (.readAnswered a)) →
    s.inputs.head? ≠ some .hardwareReset →
      t.phase = s.phase ∧ t.lock = s.lock ∧ t.cur = s.cur ∧ busEvents t.trace = busEvents s.trace

/-- R164, R181: a hardware reset, in whatever phase it comes, puts READY, LOCK, PEND and PHASE to their values after reset, sends no
response and makes no bus access. -/
def Obligations.HardwareResetAbandonsTheTransaction : Prop :=
  ∀ (s : State) (rest : List Input), s.inputs = .hardwareReset :: rest →
    ∃ t : State, step s = .next t ∧ t.ready = false ∧ t.lock = .free ∧ (∀ who, t.pend.get who = none) ∧ t.phase = .idle ∧
      t.trace = ⟨s.now, .hardwareReset⟩ :: s.trace ∧ t.inputs = rest ∧ t.now = s.now

/-- R37: the state after hardware reset, as far as the rule gives it; and the block does nothing until something comes from
outside. The values the model names for the other registers (log 7) are no part of this. -/
def Obligations.ResetState : Prop :=
  State.reset.ready = false ∧ State.reset.lock = .free ∧ (∀ who, State.reset.pend.get who = none) ∧ State.reset.phase = .idle ∧
  step State.reset = .next State.reset

/-- R19: once set, `READY` stays set without a hardware reset; it becomes set only where an INIT succeeds; and while it is not set
the four operations on a handle have no meaning. -/
def Obligations.ReadyIsSetOnlyByInit : Prop :=
  (∀ s t : State, step s = .next t → s.inputs.head? ≠ some .hardwareReset →
    (s.ready = true → t.ready = true) ∧
    (s.ready = false → t.ready = true → t.cur.op.isInit = true ∧ t.status = .ok)) ∧
  (∀ s : State, s.ready = false → ∀ i ∈ [Instr.reset, .rdTempC, .rdTempF, .rdHum], exec i s = .refused .notReady)

/-- R18: the device address is written only by INIT, from its operand, and by the hardware reset. -/
def Obligations.AddressIsWrittenOnlyByInit : Prop :=
  ∀ s t : State, step s = .next t → s.inputs.head? ≠ some .hardwareReset →
    t.devAddr = s.devAddr ∨ t.cur.op = .init t.devAddr

/-- R69, R46: whatever step is taken from whatever state, what it writes to the bus is one of three bytes, alone, to an address with
bit 7 clear; and it reads three bytes or none. What was seen before stays. -/
def Obligations.OnlyThreeCommandBytesReachTheBus : Prop :=
  ∀ s t : State, step s = .next t → ∃ new : List Observed, t.trace = new ++ s.trace ∧
    ∀ o ∈ new,
      (∀ a bytes, o.event = .writeCall a bytes → a.msb = false ∧ bytes ∈ [[0xFE#8], [0xF3#8], [0xF5#8]]) ∧
      (∀ a n, o.event = .readCall a n → a.msb = false ∧ n = 3)

/-- R112: on the bus RD_TEMP_F cannot be told from RD_TEMP_C. -/
def Obligations.FahrenheitLooksLikeCelsiusOnTheBus : Prop :=
  ∀ s t : State, exec .rdTempC s = .next t →
    ∃ u : State, exec .rdTempF s = .next u ∧ busEvents u.trace = busEvents t.trace ∧ u.now = t.now ∧ u.phase = t.phase ∧
      u.inputs = t.inputs

/-- R143: the block never looks inside a transport error: with every error renamed, a step does the same, renamed. The hardware reset
is left out because `ERR_T` then takes a value the model names (log 7). -/
def Obligations.TransportErrorsAreOpaque : Prop :=
  ∀ (f : TErr → TErr) (s t : State), step s = .next t → s.inputs.head? ≠ some .hardwareReset →
    step (renameErrors f s) = .next (renameErrors f t)

/-- R121: a pure operation taken at any time, also while a transaction waits, changes no register and moves no phase; it takes its request
and adds its response. -/
def Obligations.PureOperationsDisturbNothing : Prop :=
  ∀ (s : State) (who : Requester) (frame : List Byte) (rest : List Input) (i : Instr), s.phase.waits = true →
    s.inputs = .request who frame :: rest → decodeFrame frame = .ok i [] → i.isHost = true → i.guarded = none →
      ∃ r : Response, step s = .next
        { s with inputs := rest, issuer := who, trace := ⟨s.now, .pureResponse who r⟩ :: s.trace }

/-- R65: the serialised responses. -/
def Obligations.ResponsesAsBytes : Prop :=
  Response.bytes .ok = [0x00] ∧
  (∀ opcode delayMs : Byte, Response.bytes (.okCommand opcode delayMs) = [0x00, opcode, delayMs]) ∧
  (∀ expected actual : Byte, Response.bytes (.checksum expected actual) = [0x02, expected, actual]) ∧
  (∀ e : TErr, Response.bytes (.transport e) = 0x01 :: Config.terrBytes e) ∧
  (∀ v : Pattern32, ∃ b3 b2 b1 b0 : Byte, Response.bytes (.okValue v) = [0x00, b3, b2, b1, b0] ∧ b3 ++ b2 ++ b1 ++ b0 = v)

/-- R172: the all-zero frame passes the check and converts to the three values the rule gives; the all-ones frame does not pass. -/
def Obligations.SilentBusPassesTheCheck : Prop :=
  validate [0x00, 0x00] 0x00 = none ∧
  convTempC32 (decode16 0x00 0x00) = 0xC23B6666 ∧
  convTempF32 (convTempC32 (decode16 0x00 0x00)) = 0xC25151EB ∧
  convHum32 (decode16 0x00 0x00) = 0xC0C00000 ∧
  validate [0xFF, 0xFF] 0xFF = some ⟨0xFF, 0x2D⟩

/-! ## Invariants of every step -/

/-- R20, R55, R118, R119, R120, R174, R177: every step keeps the guard's invariant, the handle's, one outstanding operation for each
requester in canonical form, the loaded command, and the agreement with the observer, who accepts no interleaving, no other byte,
no early read and no other response. -/
def Obligations.EveryStepKeepsConformance : Prop :=
  ∀ s t : State, Conforms s → step s = .next t → Conforms t

/-- Derived from R20 and R157: every step keeps that the guard is held exactly outside IDLE, by the requester of `CUR`, and that the
timer is idle outside DELAY. That an idle timer reads 0 is the model's choice (log 6). -/
def Obligations.GuardAndTimerKeepTheirPlace : Prop :=
  ∀ s t : State, guardFits s → (s.phase ≠ .delay → s.timer = 0) → step s = .next t →
    guardFits t ∧ (t.phase ≠ .delay → t.timer = 0)

/-- R37: the state after reset conforms. -/
def Obligations.ResetConforms : Prop := Conforms State.reset

/-- Derived from R118, R119: in a state that conforms the observer has seen nothing he refuses. -/
def Obligations.ConformingStatesHaveUnbrokenTraces : Prop :=
  ∀ s : State, Conforms s → (watch s.trace).stage ≠ .broken ∧ (s.phase = .idle → (watch s.trace).stage = .quiet)

/-! ## A transaction step by step, whatever the outside world has lined up -/

/-- R105, R106, R109 to R113: a guarded operation that the guard admits next, with nothing lined up for its write, stands in WRITE with
the guard held, its command loaded, for INIT its address bound, and its write call on the bus; nothing else is changed. -/
def Obligations.AdmittedOperationsStartTheirWrite : Prop :=
  ∀ (s : State) (op : GuardedOp) (rest : List Input), admissible op s → quietFor s →
    s.inputs = .grant s.issuer :: rest → (∀ answer, rest.head? ≠ some (.writeAnswered answer)) →
    rest.head? ≠ some .hardwareReset →
      exec op.toInstr s = .next
        { withCommandSent op (wireByte op) (BitVec.ofNat 8 (leastDelayMs op)) s with
          lock := .held s.issuer
          phase := .write
          inputs := rest }

/-- R106: the rows WRITE, DELAY and READ of the phase table, each as one step of the machine, with everything it leaves; and time, which
passes in any phase that waits (R157). After a failed read `RAW` is open (R115), and nothing is said of it. -/
def Obligations.WaitingPhasesFollowTheTable : Prop :=
  ∀ (s : State) (rest : List Input),
    (s.phase = .write → s.cmdOpc = wireByte s.cur.op → s.inputs = .writeAnswered .ok :: rest →
      (∀ extra, rest.head? ≠ some (.wake extra)) →
        step s = .next
          { s with
            phase := .delay
            timer := s.cmdDly.toNat * 1000
            inputs := rest
            trace := ⟨s.now, .writeAnswer .ok⟩ :: s.trace }) ∧
    (∀ e : TErr, s.phase = .write → s.cmdOpc = wireByte s.cur.op → s.inputs = .writeAnswered (.err e) :: rest →
      step s = .next
        { s with
          phase := .respond
          status := .transport
          errT := e
          inputs := rest
          trace := ⟨s.now, .writeAnswer (.err e)⟩ :: s.trace }) ∧
    (∀ extra : Nat, s.phase = .delay → readsFrame s.cur.op = true → s.inputs = .wake extra :: rest →
      step s = .next
        { s with
          phase := .read
          timer := 0
          now := s.now + (s.timer + extra)
          inputs := rest
          trace := ⟨s.now + (s.timer + extra), .readCall (busAddr s.devAddr) 3⟩ :: s.trace }) ∧
    (∀ extra : Nat, s.phase = .delay → readsFrame s.cur.op = false → s.inputs = .wake extra :: rest →
      step s = .next
        { s with
          phase := .respond
          status := .ok
          ready := s.ready || s.cur.op.isInit
          timer := 0
          now := s.now + (s.timer + extra)
          inputs := rest }) ∧
    (∀ f : Sample, s.phase = .read → s.inputs = .readAnswered (.ok f) :: rest →
      step s = .next
        { s with phase := .check, raw := f, inputs := rest, trace := ⟨s.now, .readAnswer (.ok f)⟩ :: s.trace }) ∧
    (∀ e : TErr, s.phase = .read → s.inputs = .readAnswered (.err e) :: rest →
      ∃ t : State, step s = .next t ∧
        t = { s with
              phase := .respond
              status := .transport
              errT := e
              raw := t.raw
              draws := t.draws
              inputs := rest
              trace := ⟨s.now, .readAnswer (.err e)⟩ :: s.trace }) ∧
    (∀ us : Nat, s.phase.waits = true → s.inputs = .advance us :: rest →
      step s = .next { s with now := s.now + us, timer := s.timer - us, inputs := rest })
end

