-- ==== Sys2Proof/Laws/Converter.lean ====
section
/-! SUPPORT. What the rounding of 00_scope.md R12 does: the integer rounding, the exponent, and the value of the pattern that comes
out, each said once. -/

namespace Sys2Proof.Machine

/-! ## The integer rounding -/

theorem roundHalfEven_upper (n d : Nat) (hd : 0 < d) : 2 * (roundHalfEven n d * d) ≤ 2 * n + d := by
  have h := Nat.div_add_mod n d
  have hc : d * (n / d) = n / d * d := Nat.mul_comm _ _
  unfold roundHalfEven
  split_ifs with h1 h2
  · omega
  · rw [Nat.add_mul]; omega
  · rcases Nat.mod_two_eq_zero_or_one (n / d) with h3 | h3 <;> rw [h3, Nat.add_mul] <;> omega

theorem roundHalfEven_lower (n d : Nat) (hd : 0 < d) : 2 * n ≤ 2 * (roundHalfEven n d * d) + d := by
  have h := Nat.div_add_mod n d
  have hc : d * (n / d) = n / d * d := Nat.mul_comm _ _
  have hm := Nat.mod_lt n hd
  unfold roundHalfEven
  split_ifs with h1 h2
  · omega
  · rw [Nat.add_mul]; omega
  · rcases Nat.mod_two_eq_zero_or_one (n / d) with h3 | h3 <;> rw [h3, Nat.add_mul] <;> omega

/-- Of two equally near integers the even one is taken. -/
theorem roundHalfEven_tie (n d : Nat) (hd : 0 < d)
    (h : 2 * (roundHalfEven n d * d) = 2 * n + d ∨ 2 * n = 2 * (roundHalfEven n d * d) + d) :
    roundHalfEven n d % 2 = 0 := by
  have hdm := Nat.div_add_mod n d
  have hc : d * (n / d) = n / d * d := Nat.mul_comm _ _
  have hm := Nat.mod_lt n hd
  unfold roundHalfEven at h ⊢
  split_ifs at h ⊢ with h1 h2
  · omega
  · rw [Nat.add_mul] at h; omega
  · omega

/-- Numbers that are already integers are kept. -/
theorem roundHalfEven_exact (k d : Nat) (hd : 0 < d) : roundHalfEven (k * d) d = k := by
  simp [roundHalfEven, hd]

theorem roundHalfEven_ge (n d k : Nat) (hd : 0 < d) (h : k * d ≤ n) : k ≤ roundHalfEven n d := by
  have h1 : k ≤ n / d := (Nat.le_div_iff_mul_le hd).2 h
  unfold roundHalfEven
  split_ifs <;> omega

theorem roundHalfEven_le (n d k : Nat) (hd : 0 < d) (h : n ≤ k * d) : roundHalfEven n d ≤ k := by
  have hu := roundHalfEven_upper n d hd
  have hl := roundHalfEven_lower n d hd
  by_contra hc
  have h1 : k + 1 ≤ roundHalfEven n d := by omega
  have h2 : (k + 1) * d ≤ roundHalfEven n d * d := Nat.mul_le_mul_right d h1
  rw [Nat.add_mul] at h2
  have h3 : n = k * d := by omega
  rw [h3, roundHalfEven_exact k d hd] at hc
  omega

/-! ## The exponent -/

/-- The exponent names the binade of a positive rational, in natural numbers. -/
theorem binaryExponent_bounds (n d : Nat) (hn : 0 < n) (hd : 0 < d) :
    (2 : ℚ) ^ binaryExponent n d * d ≤ n ∧ (n : ℚ) < 2 ^ (binaryExponent n d + 1) * d := by
  have hn1 : (2 : ℚ) ^ (Nat.log2 n : ℤ) ≤ n := by
    rw [zpow_natCast]; exact_mod_cast Nat.log2_self_le hn.ne'
  have hn2 : (n : ℚ) < 2 ^ ((Nat.log2 n : ℤ) + 1) := by
    have : n < 2 ^ (Nat.log2 n + 1) := Nat.lt_log2_self
    rw [show ((Nat.log2 n : ℤ) + 1) = ((Nat.log2 n + 1 : ℕ) : ℤ) by push_cast; ring, zpow_natCast]; exact_mod_cast this
  have hd1 : (2 : ℚ) ^ (Nat.log2 d : ℤ) ≤ d := by
    rw [zpow_natCast]; exact_mod_cast Nat.log2_self_le hd.ne'
  have hd2 : (d : ℚ) < 2 ^ ((Nat.log2 d : ℤ) + 1) := by
    have : d < 2 ^ (Nat.log2 d + 1) := Nat.lt_log2_self
    rw [show ((Nat.log2 d : ℤ) + 1) = ((Nat.log2 d + 1 : ℕ) : ℤ) by push_cast; ring, zpow_natCast]; exact_mod_cast this
  have hd0 : (0 : ℚ) < d := by exact_mod_cast hd
  have h2 : (2 : ℚ) ≠ 0 := by norm_num
  generalize hk : (Nat.log2 n : ℤ) - Nat.log2 d = k
  have hup : (n : ℚ) < 2 ^ (k + 1) * d := by
    calc (n : ℚ) < 2 ^ ((Nat.log2 n : ℤ) + 1) := hn2
      _ = 2 ^ (k + 1) * 2 ^ (Nat.log2 d : ℤ) := by rw [← zpow_add₀ h2]; congr 1; omega
      _ ≤ 2 ^ (k + 1) * d := by gcongr
  have hlo : (2 : ℚ) ^ (k - 1) * d ≤ n := by
    calc (2 : ℚ) ^ (k - 1) * d ≤ 2 ^ (k - 1) * 2 ^ ((Nat.log2 d : ℤ) + 1) := by gcongr
      _ = 2 ^ (Nat.log2 n : ℤ) := by rw [← zpow_add₀ h2]; congr 1; omega
      _ ≤ n := hn1
  have htest : d * 2 ^ k.toNat ≤ n * 2 ^ (-k).toNat ↔ (2 : ℚ) ^ k * d ≤ n := by
    rcases le_or_gt 0 k with h | h
    · obtain ⟨j, rfl⟩ := Int.eq_ofNat_of_zero_le h
      rw [show (-(j : ℤ)).toNat = 0 by omega, Int.toNat_natCast, zpow_natCast, pow_zero, mul_one, mul_comm]
      exact_mod_cast Iff.rfl
    · obtain ⟨j, hj⟩ := Int.eq_ofNat_of_zero_le (show 0 ≤ -k by omega)
      have hkj : k = -(j : ℤ) := by omega
      subst hkj
      rw [show (-(j : ℤ)).toNat = 0 by omega, neg_neg, Int.toNat_natCast, zpow_neg, zpow_natCast, pow_zero, mul_one,
        inv_mul_le_iff₀ (by positivity), mul_comm (n : ℕ)]
      exact_mod_cast Iff.rfl
  unfold binaryExponent
  simp only [hk]
  split_ifs with h
  · exact ⟨htest.1 h, hup⟩
  · refine ⟨hlo, ?_⟩
    rw [sub_add_cancel]
    by_contra hc
    exact h (htest.2 (not_lt.1 hc))

/-! ## Patterns and their values -/

theorem exponentField_toNat (p : Pattern32) : (exponentField p).toNat = p.toNat / 2 ^ 23 % 256 := by
  simp [exponentField, BitVec.extractLsb'_toNat, Nat.shiftRight_eq_div_pow]

theorem fractionField_toNat (p : Pattern32) : (fractionField p).toNat = p.toNat % 2 ^ 23 := by
  simp [fractionField, BitVec.extractLsb'_toNat]

/-- The value of a positive pattern of a normal number, from its fields. -/
theorem val32_of_fields (p : Pattern32) (e f : Nat) (he : 1 ≤ e) (he2 : e ≤ 254) (hf : f < 2 ^ 23)
    (hp : p.toNat = e * 2 ^ 23 + f) :
    val32 p = (f + 2 ^ 23) * 2 ^ e / 2 ^ 150 ∧ isFinite32 p = true ∧ exponentField p ≠ 0 ∧ p.msb = false := by
  have h1 : (exponentField p).toNat = e := by rw [exponentField_toNat, hp]; omega
  have h2 : (fractionField p).toNat = f := by rw [fractionField_toNat, hp]; omega
  have h3 : exponentField p ≠ 0 := fun h => by
    have h0 : (exponentField p).toNat = 0 := by rw [h]; rfl
    omega
  have h4 : p.msb = false := by rw [BitVec.msb_eq_false_iff_two_mul_lt, hp]; omega
  have h5 : isFinite32 p = true := by
    simp only [isFinite32, bne_iff_ne, ne_eq]
    intro h
    have h0 : (exponentField p).toNat = 255 := by rw [h]; rfl
    omega
  refine ⟨?_, h5, h3, h4⟩
  unfold val32
  simp only [h1, h2, h3, h4, if_false, max_eq_left he, Bool.false_eq_true]
  rw [Rat.mkRat_eq_div, div_eq_div_iff (by positivity) (by positivity)]
  push_cast
  have hpow : (2 : ℚ) ^ (e - 150) * 2 ^ 150 = 2 ^ e * 2 ^ (150 - e) := by
    have h : e - 150 + 150 = e + (150 - e) := by omega
    rw [← pow_add (2 : ℚ) (e - 150) 150, ← pow_add (2 : ℚ) e (150 - e), h]
  rw [mul_assoc, hpow]; ring

/-- A pattern put together from an exponent and a significand with its hidden bit; the significand may have carried. -/
theorem val32_assembled (k m : Nat) (hk : k ≤ 250) (hm1 : 2 ^ 23 ≤ m) (hm2 : m ≤ 2 ^ 24) :
    val32 (BitVec.ofNat 32 (k * 2 ^ 23 + m)) = m * 2 ^ k / 2 ^ 149 ∧ isFinite32 (BitVec.ofNat 32 (k * 2 ^ 23 + m)) = true ∧
      exponentField (BitVec.ofNat 32 (k * 2 ^ 23 + m)) ≠ 0 ∧ (BitVec.ofNat 32 (k * 2 ^ 23 + m)).msb = false := by
  rcases Nat.lt_or_ge m (2 ^ 24) with h | h
  · obtain ⟨f, rfl⟩ := Nat.exists_eq_add_of_le hm1
    have hv := val32_of_fields (BitVec.ofNat 32 (k * 2 ^ 23 + (2 ^ 23 + f))) (k + 1) f (by omega) (by omega) (by omega)
      (by rw [BitVec.toNat_ofNat]; omega)
    refine ⟨?_, hv.2⟩
    rw [hv.1, div_eq_div_iff (by positivity) (by positivity)]
    push_cast
    ring
  · have hm : m = 2 ^ 24 := le_antisymm hm2 h
    subst hm
    have hv := val32_of_fields (BitVec.ofNat 32 (k * 2 ^ 23 + 2 ^ 24)) (k + 2) 0 (by omega) (by omega) (by omega)
      (by rw [BitVec.toNat_ofNat]; omega)
    refine ⟨?_, hv.2⟩
    rw [hv.1, div_eq_div_iff (by positivity) (by positivity)]
    push_cast
    ring

/-- The sign bit turns a value into its negative. -/
theorem val32_negated (n : Nat) (h : n < 2 ^ 31) :
    val32 (BitVec.ofNat 32 (2 ^ 31 + n)) = -val32 (BitVec.ofNat 32 n) ∧
      exponentField (BitVec.ofNat 32 (2 ^ 31 + n)) = exponentField (BitVec.ofNat 32 n) ∧
      (BitVec.ofNat 32 (2 ^ 31 + n)).getLsbD 0 = (BitVec.ofNat 32 n).getLsbD 0 := by
  have he : exponentField (BitVec.ofNat 32 (2 ^ 31 + n)) = exponentField (BitVec.ofNat 32 n) := by
    apply BitVec.eq_of_toNat_eq
    simp only [exponentField_toNat, BitVec.toNat_ofNat]; omega
  have hf : (fractionField (BitVec.ofNat 32 (2 ^ 31 + n))).toNat = (fractionField (BitVec.ofNat 32 n)).toNat := by
    simp only [fractionField_toNat, BitVec.toNat_ofNat]; omega
  have hm1 : (BitVec.ofNat 32 (2 ^ 31 + n)).msb = true := by
    rw [BitVec.msb_eq_true_iff_two_mul_ge, BitVec.toNat_ofNat]; omega
  have hm2 : (BitVec.ofNat 32 n).msb = false := by
    rw [BitVec.msb_eq_false_iff_two_mul_lt, BitVec.toNat_ofNat]; omega
  refine ⟨?_, he, ?_⟩
  · unfold val32
    simp only [he, hf, hm1, hm2, if_true, Bool.false_eq_true, if_false]
  · simp only [BitVec.getLsbD, BitVec.toNat_ofNat, Nat.testBit_zero]
    congr 1
    apply propext
    omega

/-! ## The rounding of a rational -/

/-- What the magnitude of a rational in the range of R12 is: an exponent and a significand of 24 bits (or one more, carried), the
significand being the rational divided by the last place of its binade, rounded half to even. -/
theorem magnitude32_spec (n d : Nat) (hd : 0 < d) (hlo : (1 : ℚ) / 2 ^ 14 ≤ n / d) (hhi : (n : ℚ) / d < 2 ^ 9) :
    ∃ k : Nat, 112 ≤ k ∧ k ≤ 134 ∧ ∃ m : Nat, magnitude32 n d = k * 2 ^ 23 + m ∧ 2 ^ 23 ≤ m ∧ m ≤ 2 ^ 24 ∧
      m = roundHalfEven (n * 2 ^ (149 - k)) d ∧ 2 ^ 23 * d ≤ n * 2 ^ (149 - k) ∧ n * 2 ^ (149 - k) < 2 ^ 24 * d := by
  have hd0 : (0 : ℚ) < d := by exact_mod_cast hd
  have hn0 : (0 : ℚ) < n := by
    have : (0 : ℚ) < n / d := lt_of_lt_of_le (by norm_num) hlo
    exact (div_pos_iff_of_pos_right hd0).1 this
  have hn : 0 < n := by exact_mod_cast hn0
  obtain ⟨hb1, hb2⟩ := binaryExponent_bounds n d hn hd
  rw [le_div_iff₀ hd0] at hlo
  rw [div_lt_iff₀ hd0] at hhi
  generalize he : binaryExponent n d = e at hb1 hb2
  have h1 : (1 : ℚ) < 2 := by norm_num
  have he1 : -14 ≤ e := by
    by_contra hc
    have : (2 : ℚ) ^ (e + 1) ≤ 2 ^ (-14 : ℤ) := zpow_le_zpow_right₀ h1.le (by omega)
    have h3 : (2 : ℚ) ^ (-14 : ℤ) = 1 / 2 ^ 14 := by norm_num
    have h4 := mul_le_mul_of_nonneg_right this hd0.le
    rw [h3] at h4
    linarith
  have he2 : e ≤ 8 := by
    by_contra hc
    have : (2 : ℚ) ^ (9 : ℤ) ≤ 2 ^ e := zpow_le_zpow_right₀ h1.le (by omega)
    have h3 : (2 : ℚ) ^ (9 : ℤ) = 2 ^ 9 := by norm_num
    have h4 := mul_le_mul_of_nonneg_right this hd0.le
    rw [h3] at h4
    linarith
  obtain ⟨k, hk⟩ := Int.eq_ofNat_of_zero_le (show 0 ≤ e + 126 by omega)
  have hsh : (23 - e).toNat = 149 - k := by omega
  have hq1 : 2 ^ 23 * d ≤ n * 2 ^ (149 - k) := by
    have : (2 : ℚ) ^ 23 * d ≤ n * 2 ^ (149 - k) := by
      have h2 : (2 : ℚ) ^ 23 = 2 ^ e * 2 ^ (149 - k) := by
        rw [← zpow_natCast, ← zpow_natCast, ← zpow_add₀ (by norm_num)]; congr 1; omega
      rw [h2]
      calc (2 : ℚ) ^ e * 2 ^ (149 - k) * d = (2 : ℚ) ^ e * d * 2 ^ (149 - k) := by ring
        _ ≤ n * 2 ^ (149 - k) := by gcongr
    exact_mod_cast this
  have hq2 : n * 2 ^ (149 - k) < 2 ^ 24 * d := by
    have : (n : ℚ) * 2 ^ (149 - k) < 2 ^ 24 * d := by
      have h2 : (2 : ℚ) ^ 24 = 2 ^ (e + 1) * 2 ^ (149 - k) := by
        rw [← zpow_natCast, ← zpow_natCast, ← zpow_add₀ (by norm_num)]; congr 1; omega
      rw [h2]
      calc (n : ℚ) * 2 ^ (149 - k) < 2 ^ (e + 1) * d * 2 ^ (149 - k) := by gcongr
        _ = 2 ^ (e + 1) * 2 ^ (149 - k) * d := by ring
    exact_mod_cast this
  have hm1 := roundHalfEven_ge _ d (2 ^ 23) hd hq1
  have hm2 := roundHalfEven_le _ d (2 ^ 24) hd hq2.le
  refine ⟨k, by omega, by omega, roundHalfEven (n * 2 ^ (149 - k)) d, ?_, hm1, hm2, rfl, hq1, hq2⟩
  unfold magnitude32
  simp only [he]
  rw [max_eq_left (by omega), hsh, show (e - 23).toNat = 0 by omega, show (e + 126).toNat = k by omega, pow_zero, mul_one]
  apply min_eq_left
  omega

/-- Rounding a rational of the range of R12: the pattern is of a normal number, its magnitude is a significand times a power of two, and
that significand is the rational's, rounded half to even. -/
theorem rne32_spec (q : ℚ) (hlo : 1 / 2 ^ 14 ≤ |q|) (hhi : |q| < 2 ^ 9) :
    ∃ k m : Nat, 112 ≤ k ∧ k ≤ 134 ∧ 2 ^ 23 ≤ m ∧ m ≤ 2 ^ 24 ∧
      m = roundHalfEven (q.num.natAbs * 2 ^ (149 - k)) q.den ∧
      2 ^ 23 * q.den ≤ q.num.natAbs * 2 ^ (149 - k) ∧ q.num.natAbs * 2 ^ (149 - k) < 2 ^ 24 * q.den ∧
      val32 (rne32 q) = (if q < 0 then -1 else 1) * (m * 2 ^ k / 2 ^ 149) ∧
      isFinite32 (rne32 q) = true ∧ exponentField (rne32 q) ≠ 0 ∧ (rne32 q).getLsbD 0 = decide (m % 2 = 1) := by
  have habs : (q.num.natAbs : ℚ) / q.den = |q| := by
    conv_rhs => rw [← Rat.num_div_den q]
    rw [Nat.cast_natAbs, Int.cast_abs, abs_div, Nat.abs_cast]
  have hne : q.num ≠ 0 := by
    intro h
    rw [Rat.num_eq_zero] at h
    subst h
    norm_num at hlo
  obtain ⟨k, hk1, hk2, m, hmag, hm1, hm2, hm, hq1, hq2⟩ :=
    magnitude32_spec q.num.natAbs q.den q.den_pos (habs ▸ hlo) (habs ▸ hhi)
  have ha := val32_assembled k m (by omega) hm1 hm2
  have hbit : (BitVec.ofNat 32 (k * 2 ^ 23 + m)).getLsbD 0 = decide (m % 2 = 1) := by
    simp only [BitVec.getLsbD, BitVec.toNat_ofNat, Nat.testBit_zero]
    congr 1
    apply propext
    omega
  refine ⟨k, m, hk1, hk2, hm1, hm2, hm, hq1, hq2, ?_⟩
  have hr : rne32 q = BitVec.ofNat 32 (if q < 0 then 2 ^ 31 + (k * 2 ^ 23 + m) else k * 2 ^ 23 + m) := by
    simp only [rne32, if_neg hne, hmag]
  rw [hr]
  split_ifs with hneg
  · obtain ⟨h1, h2, h3⟩ := val32_negated (k * 2 ^ 23 + m) (by omega)
    refine ⟨by rw [h1, ha.1]; ring, ?_, by rw [h2]; exact ha.2.2.1, by rw [h3, hbit]⟩
    unfold isFinite32
    rw [h2]
    exact ha.2.1
  · exact ⟨by rw [ha.1]; ring, ha.2.1, ha.2.2.1, hbit⟩

/-- The rounding error in the range of R12 is at most half a unit in the last place of the rational's binade: 2^k / 2^149 is that unit, and
the binade reaches from 2^k / 2^126 to twice that. -/
theorem rne32_error (q : ℚ) (hlo : 1 / 2 ^ 14 ≤ |q|) (hhi : |q| < 2 ^ 9) :
    ∃ k : Nat, 112 ≤ k ∧ k ≤ 134 ∧ (2 : ℚ) ^ k / 2 ^ 126 ≤ |q| ∧ |q| < 2 ^ (k + 1) / 2 ^ 126 ∧
      |val32 (rne32 q) - q| ≤ 2 ^ k / 2 ^ 150 := by
  obtain ⟨k, m, hk1, hk2, hm1, hm2, hm, hq1, hq2, hv, -⟩ := rne32_spec q hlo hhi
  have hd := q.den_pos
  have hd0 : (0 : ℚ) < q.den := by exact_mod_cast hd
  have habs : |q| = (q.num.natAbs : ℚ) / q.den := by
    conv_lhs => rw [← Rat.num_div_den q]
    rw [Nat.cast_natAbs, Int.cast_abs, abs_div, Nat.abs_cast]
  have hq : q = (if q < 0 then -1 else 1) * |q| := by
    split_ifs with h
    · rw [abs_of_neg h]; ring
    · rw [abs_of_nonneg (not_lt.1 h)]; ring
  have hp : (2 : ℚ) ^ (149 - k) * 2 ^ k = 2 ^ 149 := by rw [← pow_add]; congr 1; omega
  have hpk : (0 : ℚ) < 2 ^ k := by positivity
  generalize hn : q.num.natAbs = n at *
  generalize hdd : q.den = d at *
  have hu : (2 : ℚ) * (m * d) ≤ 2 * (n * 2 ^ (149 - k)) + d := by
    rw [hm]; exact_mod_cast roundHalfEven_upper (n * 2 ^ (149 - k)) d hd
  have hl : (2 : ℚ) * (n * 2 ^ (149 - k)) ≤ 2 * (m * d) + d := by
    rw [hm]; exact_mod_cast roundHalfEven_lower (n * 2 ^ (149 - k)) d hd
  have hq1' : (2 : ℚ) ^ 23 * d ≤ n * 2 ^ (149 - k) := by exact_mod_cast hq1
  have hq2' : (n : ℚ) * 2 ^ (149 - k) < 2 ^ 24 * d := by exact_mod_cast hq2
  have hx : (n : ℚ) / d = n * 2 ^ (149 - k) / d * 2 ^ k / 2 ^ 149 := by
    rw [← hp]
    field_simp
  generalize (n : ℚ) * 2 ^ (149 - k) = y at *
  refine ⟨k, hk1, hk2, ?_, ?_, ?_⟩
  · rw [habs, hx, div_le_div_iff₀ (by positivity) (by positivity)]
    have : (2 : ℚ) ^ 23 ≤ y / d := by rw [le_div_iff₀ hd0]; exact hq1'
    nlinarith
  · have h1 : y / d < (2 : ℚ) ^ 24 := by rw [div_lt_iff₀ hd0]; exact hq2'
    have h2 : y / d * 2 ^ k < 2 ^ 24 * 2 ^ k := mul_lt_mul_of_pos_right h1 hpk
    rw [habs, hx, div_lt_div_iff₀ (by positivity) (by positivity)]
    rw [show (k + 1) = k + 1 from rfl, pow_add]
    linarith
  · have hd1 : |(m : ℚ) - y / d| ≤ 1 / 2 := by
      rw [abs_le]
      constructor
      · rw [neg_le_sub_iff_le_add, div_le_iff₀ hd0]; linarith
      · rw [sub_le_iff_le_add, ← sub_le_iff_le_add', le_div_iff₀ hd0]; linarith
    rw [hv]
    have hs : |(if q < 0 then (-1 : ℚ) else 1)| = 1 := by split_ifs <;> simp
    generalize (if q < 0 then (-1 : ℚ) else 1) = sign at *
    rw [hq, habs, hx]
    rw [← mul_sub, abs_mul, hs, one_mul,
      show (m : ℚ) * 2 ^ k / 2 ^ 149 - y / d * 2 ^ k / 2 ^ 149 = (m - y / d) * (2 ^ k / 2 ^ 149) by ring, abs_mul,
      abs_of_pos (show (0 : ℚ) < 2 ^ k / 2 ^ 149 by positivity),
      show (2 : ℚ) ^ k / 2 ^ 150 = 1 / 2 * (2 ^ k / 2 ^ 149) by ring]
    exact mul_le_mul_of_nonneg_right hd1 (by positivity)

end Sys2Proof.Machine
end

