-- ==== Sys2Proof/Laws/Crc.lean ====
section
/-! SUPPORT. The small lemmas of the CRC unit (40_crc8.md R84 to R86): one byte more, and what the validator answers. -/

namespace Sys2Proof.Machine

/-- The checksum of a sequence with a sequence after it goes on from the first one's (R85). -/
theorem crc8_append (data more : List Byte) : crc8 (data ++ more) = more.foldl crcUpdate (crc8 data) := by
  simp [crc8, List.foldl_append]

@[simp] theorem crc8_concat (data : List Byte) (b : Byte) : crc8 (data ++ [b]) = crcUpdate (crc8 data) b := by
  simp [crc8_append]

/-- A byte equal to the accumulator brings it to entry 0 (R84). -/
theorem crcUpdate_self (b : Byte) : crcUpdate b b = crcRom 0 := by simp [crcUpdate]

theorem crcRom_zero : crcRom 0 = 0 := rfl

/-- The loop's turn respects the exclusive or, as a division by a polynomial does (R82). -/
theorem crcShift_xor (a b : Byte) : crcShift (a ^^^ b) = crcShift a ^^^ crcShift b := by
  unfold crcShift
  rw [BitVec.msb_xor, BitVec.shiftLeft_xor_distrib]
  cases a.msb <;> cases b.msb <;> simp only [Bool.xor_self, Bool.xor_true, Bool.xor_false, Bool.not_false,
    Bool.false_eq_true, if_true, if_false, BitVec.xor_assoc]
  · rw [BitVec.xor_comm (b <<< 1)]
  · rw [BitVec.xor_comm (b <<< 1), ← BitVec.xor_assoc 0x31#8, BitVec.xor_self, BitVec.zero_xor]

theorem validate_eq_none {data : List Byte} {expected : Byte} : validate data expected = none ↔ crc8 data = expected := by
  unfold validate
  split_ifs with h <;> simp [h]

theorem validate_eq_some {data : List Byte} {expected : Byte} {m : Mismatch} :
    validate data expected = some m ↔ crc8 data ≠ expected ∧ m = ⟨expected, crc8 data⟩ := by
  unfold validate
  split_ifs with h <;> simp [h, eq_comm]

end Sys2Proof.Machine
end

