-- ==== Sys2Proof/Laws/Decode.lean ====
section
/-! SUPPORT. The decoder of host requests, form by form (30_encoding.md R63, R64). -/

namespace Sys2Proof

theorem decodeFrame_ok {frame rest : List Byte} {i : Instr} (h : decodeFrame frame = .ok i rest) :
    rest = [] ∧ decodeRequest frame = .ok i [] := by
  unfold decodeFrame at h
  split at h <;> simp_all

@[simp] theorem decodeRequest_init (operand : Byte) (rest : List Byte) :
    decodeRequest (0x00 :: operand :: rest) = if operand.msb then .bad .addressBit7 else .ok (.init operand) rest := rfl

@[simp] theorem decodeRequest_reset (rest : List Byte) : decodeRequest (0x01 :: rest) = .ok .reset rest := rfl

@[simp] theorem decodeRequest_rdTempC (rest : List Byte) : decodeRequest (0x02 :: rest) = .ok .rdTempC rest := rfl

@[simp] theorem decodeRequest_rdTempF (rest : List Byte) : decodeRequest (0x03 :: rest) = .ok .rdTempF rest := rfl

@[simp] theorem decodeRequest_rdHum (rest : List Byte) : decodeRequest (0x04 :: rest) = .ok .rdHum rest := rfl

@[simp] theorem decodeRequest_cmdLookup (sel : Byte) (rest : List Byte) :
    decodeRequest (0x06 :: sel :: rest) =
      if sel.toNat ≤ 4 then .ok (.cmdLookup sel) rest else .bad .selectorAbove4 := rfl

theorem decodeRequest_crcValidate (len : Byte) (data rest : List Byte) (expected : Byte) (h : data.length = len.toNat) :
    decodeRequest (0x05 :: len :: (data ++ expected :: rest)) = .ok (.crcValidate data expected) rest := by
  simp [decodeRequest, decodeCrc, ← h]

end Sys2Proof
end

