-- ==== Sys2Proof/Laws/Pending.lean ====
section
/-! SUPPORT. `PEND` as a map (10_state.md R21): read after write, one requester's slot apart from another's, and the canonical form. -/

namespace Sys2Proof.Machine

@[simp] theorem Pending.get_nil (who : Requester) : Pending.get [] who = none := rfl

@[simp] theorem Pending.get_cons (x : Requester × GuardedOp) (p : Pending) (who : Requester) :
    Pending.get (x :: p) who = if x.1 = who then some x.2 else Pending.get p who := rfl

@[simp] theorem Pending.drop_nil (who : Requester) : Pending.drop [] who = [] := rfl

theorem Pending.drop_cons (x : Requester × GuardedOp) (p : Pending) (who : Requester) :
    Pending.drop (x :: p) who = if x.1 = who then Pending.drop p who else x :: Pending.drop p who := by
  by_cases h : x.1 = who <;> simp [Pending.drop, h]

theorem Pending.get_put_self (p : Pending) (who : Requester) (op : GuardedOp) : (p.put who op).get who = some op := by
  induction p with
  | nil => simp [Pending.put]
  | cons x p ih =>
    obtain ⟨i, o⟩ := x
    unfold Pending.put
    split_ifs with h1 h2
    · simp
    · simp
    · simp [Ne.symm h2, ih]

theorem Pending.get_put_other (p : Pending) (who other : Requester) (op : GuardedOp) (h : other ≠ who) :
    (p.put who op).get other = p.get other := by
  induction p with
  | nil => simp [Pending.put, h.symm]
  | cons x p ih =>
    obtain ⟨i, o⟩ := x
    unfold Pending.put
    split_ifs with h1 h2
    · simp [h.symm]
    · subst h2; simp [h.symm]
    · simp [ih]

theorem Pending.get_drop_self (p : Pending) (who : Requester) : (p.drop who).get who = none := by
  induction p with
  | nil => rfl
  | cons x p ih =>
    rw [Pending.drop_cons]
    split_ifs with h
    · exact ih
    · simp [h, ih]

theorem Pending.get_drop_other (p : Pending) (who other : Requester) (h : other ≠ who) :
    (p.drop who).get other = p.get other := by
  induction p with
  | nil => rfl
  | cons x p ih =>
    rw [Pending.drop_cons]
    split_ifs with hx
    · simp [hx, h.symm, ih]
    · simp [ih]

/-- Nothing is there to take away from a requester without a pending request. -/
theorem Pending.drop_of_get_none (p : Pending) (who : Requester) (h : p.get who = none) : p.drop who = p := by
  induction p with
  | nil => rfl
  | cons x p ih =>
    rw [Pending.get_cons] at h
    split_ifs at h with hx
    rw [Pending.drop_cons, if_neg hx, ih h]

/-- A request that enters and is at once admitted leaves `PEND` as it was. -/
theorem Pending.drop_put (p : Pending) (who : Requester) (op : GuardedOp) (h : p.get who = none) : (p.put who op).drop who = p := by
  induction p with
  | nil => simp [Pending.put, Pending.drop_cons]
  | cons x p ih =>
    obtain ⟨i, o⟩ := x
    rw [Pending.get_cons] at h
    split_ifs at h with hx
    have hi : i ≠ who := hx
    unfold Pending.put
    split_ifs with h1 h2
    · rw [Pending.drop_cons, if_pos rfl, Pending.drop_cons, if_neg hi, Pending.drop_of_get_none p who h]
    · exact absurd h2.symm hi
    · rw [Pending.drop_cons, if_neg hi, ih h]

theorem Pending.mem_put {p : Pending} {who : Requester} {op : GuardedOp} {x : Requester × GuardedOp} (h : x ∈ p.put who op) :
    x = (who, op) ∨ x ∈ p := by
  induction p with
  | nil => simpa [Pending.put] using h
  | cons y p ih =>
    obtain ⟨i, o⟩ := y
    unfold Pending.put at h
    split_ifs at h with h1 h2
    · simpa using h
    · rcases List.mem_cons.1 h with h | h
      · exact .inl h
      · exact .inr (List.mem_cons_of_mem _ h)
    · rcases List.mem_cons.1 h with h | h
      · exact .inr (h ▸ List.mem_cons_self)
      · exact (ih h).imp_right (List.mem_cons_of_mem _)

/-- Writing keeps the canonical form. -/
theorem Pending.wf_put (p : Pending) (who : Requester) (op : GuardedOp) (h : Pending.wf p) : Pending.wf (p.put who op) := by
  induction p with
  | nil => simp [Pending.put, Pending.wf]
  | cons x p ih =>
    obtain ⟨i, o⟩ := x
    obtain ⟨h1, h2⟩ := List.pairwise_cons.1 h
    unfold Pending.put
    split_ifs with c1 c2
    · refine List.pairwise_cons.2 ⟨fun y hy => ?_, h⟩
      rcases List.mem_cons.1 hy with rfl | hy
      · exact c1
      · exact lt_trans c1 (h1 y hy)
    · subst c2
      exact List.pairwise_cons.2 ⟨h1, h2⟩
    · refine List.pairwise_cons.2 ⟨fun y hy => ?_, ih h2⟩
      rcases Pending.mem_put hy with rfl | hy
      · exact lt_of_le_of_ne (not_lt.1 c1) (Ne.symm c2)
      · exact h1 y hy

/-- Clearing keeps the canonical form. -/
theorem Pending.wf_drop (p : Pending) (who : Requester) (h : Pending.wf p) : Pending.wf (p.drop who) :=
  List.Pairwise.filter _ h

theorem Pending.mem_of_get {p : Pending} {who : Requester} {op : GuardedOp} (h : p.get who = some op) : (who, op) ∈ p := by
  induction p with
  | nil => simp at h
  | cons x p ih =>
    rw [Pending.get_cons] at h
    split_ifs at h with hx
    · obtain ⟨i, o⟩ := x
      simp_all
    · exact List.mem_cons_of_mem _ (ih h)

end Sys2Proof.Machine
end

