-- ==== Sys2Proof/Laws/PerInstr.lean ====
section
/-! SUPPORT. Statements about every instruction, one lemma for each constructor. -/

namespace Sys2Proof.Laws.EncodedLength

/-- The length of an instruction's encoding: R63 and R79 for host requests, R68 for sensor commands. -/
def lengthOf : Instr → Nat
  | .init _ | .cmdLookup _ => 2
  | .crcValidate data _ => data.length + 3
  | .reset | .rdTempC | .rdTempF | .rdHum => 1
  | .softReset | .trigTempNohold | .trigHumNohold | .readUserReg | .writeUserReg => 1

/-- A well-formed instruction is encoded in as many bytes as its form has, at most 258. -/
def Statement (i : Instr) : Prop := i.wf = true → (encode i).length = lengthOf i ∧ lengthOf i ≤ 258

theorem init (addr : Byte) : Statement (.init addr) := fun _ => ⟨rfl, by simp [lengthOf]⟩
theorem reset : Statement .reset := fun _ => ⟨rfl, by decide⟩
theorem rdTempC : Statement .rdTempC := fun _ => ⟨rfl, by decide⟩
theorem rdTempF : Statement .rdTempF := fun _ => ⟨rfl, by decide⟩
theorem rdHum : Statement .rdHum := fun _ => ⟨rfl, by decide⟩
theorem crcValidate (data : List Byte) (expected : Byte) : Statement (.crcValidate data expected) := fun h => by
  have : data.length ≤ 255 := by simpa [Instr.wf] using h
  refine ⟨by simp [encode, encodeWith, lengthOf], ?_⟩
  simp only [lengthOf]
  omega
theorem cmdLookup (sel : Byte) : Statement (.cmdLookup sel) := fun _ => ⟨rfl, by simp [lengthOf]⟩
theorem softReset : Statement .softReset := fun _ => ⟨rfl, by decide⟩
theorem trigTempNohold : Statement .trigTempNohold := fun _ => ⟨rfl, by decide⟩
theorem trigHumNohold : Statement .trigHumNohold := fun _ => ⟨rfl, by decide⟩
theorem readUserReg : Statement .readUserReg := fun _ => ⟨rfl, by decide⟩
theorem writeUserReg : Statement .writeUserReg := fun _ => ⟨rfl, by decide⟩

end Sys2Proof.Laws.EncodedLength
end

