-- ==== Sys2Proof/Laws/State.lean ====
section
/-! SUPPORT. What each named update of the state leaves in each field: one lemma per field and update, true by rfl. -/

namespace Sys2Proof.Machine

@[simp] theorem emit_devAddr (e : Event) (s : State) : (emit e s).devAddr = s.devAddr := rfl
@[simp] theorem emit_ready (e : Event) (s : State) : (emit e s).ready = s.ready := rfl
@[simp] theorem emit_lock (e : Event) (s : State) : (emit e s).lock = s.lock := rfl
@[simp] theorem emit_pend (e : Event) (s : State) : (emit e s).pend = s.pend := rfl
@[simp] theorem emit_phase (e : Event) (s : State) : (emit e s).phase = s.phase := rfl
@[simp] theorem emit_cur (e : Event) (s : State) : (emit e s).cur = s.cur := rfl
@[simp] theorem emit_cmdOpc (e : Event) (s : State) : (emit e s).cmdOpc = s.cmdOpc := rfl
@[simp] theorem emit_cmdDly (e : Event) (s : State) : (emit e s).cmdDly = s.cmdDly := rfl
@[simp] theorem emit_raw (e : Event) (s : State) : (emit e s).raw = s.raw := rfl
@[simp] theorem emit_crcAcc (e : Event) (s : State) : (emit e s).crcAcc = s.crcAcc := rfl
@[simp] theorem emit_d (e : Event) (s : State) : (emit e s).d = s.d := rfl
@[simp] theorem emit_result (e : Event) (s : State) : (emit e s).result = s.result := rfl
@[simp] theorem emit_status (e : Event) (s : State) : (emit e s).status = s.status := rfl
@[simp] theorem emit_errExpected (e : Event) (s : State) : (emit e s).errExpected = s.errExpected := rfl
@[simp] theorem emit_errActual (e : Event) (s : State) : (emit e s).errActual = s.errActual := rfl
@[simp] theorem emit_errT (e : Event) (s : State) : (emit e s).errT = s.errT := rfl
@[simp] theorem emit_timer (e : Event) (s : State) : (emit e s).timer = s.timer := rfl
@[simp] theorem emit_issuer (e : Event) (s : State) : (emit e s).issuer = s.issuer := rfl
@[simp] theorem emit_inputs (e : Event) (s : State) : (emit e s).inputs = s.inputs := rfl
@[simp] theorem emit_now (e : Event) (s : State) : (emit e s).now = s.now := rfl
@[simp] theorem emit_trace (e : Event) (s : State) : (emit e s).trace = ⟨s.now, e⟩ :: s.trace := rfl
@[simp] theorem emit_draws (e : Event) (s : State) : (emit e s).draws = s.draws := rfl

@[simp] theorem goto_devAddr (p : Phase) (s : State) : (goto p s).devAddr = s.devAddr := rfl
@[simp] theorem goto_ready (p : Phase) (s : State) : (goto p s).ready = s.ready := rfl
@[simp] theorem goto_lock (p : Phase) (s : State) : (goto p s).lock = s.lock := rfl
@[simp] theorem goto_pend (p : Phase) (s : State) : (goto p s).pend = s.pend := rfl
@[simp] theorem goto_phase (p : Phase) (s : State) : (goto p s).phase = p := rfl
@[simp] theorem goto_cur (p : Phase) (s : State) : (goto p s).cur = s.cur := rfl
@[simp] theorem goto_cmdOpc (p : Phase) (s : State) : (goto p s).cmdOpc = s.cmdOpc := rfl
@[simp] theorem goto_cmdDly (p : Phase) (s : State) : (goto p s).cmdDly = s.cmdDly := rfl
@[simp] theorem goto_raw (p : Phase) (s : State) : (goto p s).raw = s.raw := rfl
@[simp] theorem goto_crcAcc (p : Phase) (s : State) : (goto p s).crcAcc = s.crcAcc := rfl
@[simp] theorem goto_d (p : Phase) (s : State) : (goto p s).d = s.d := rfl
@[simp] theorem goto_result (p : Phase) (s : State) : (goto p s).result = s.result := rfl
@[simp] theorem goto_status (p : Phase) (s : State) : (goto p s).status = s.status := rfl
@[simp] theorem goto_errExpected (p : Phase) (s : State) : (goto p s).errExpected = s.errExpected := rfl
@[simp] theorem goto_errActual (p : Phase) (s : State) : (goto p s).errActual = s.errActual := rfl
@[simp] theorem goto_errT (p : Phase) (s : State) : (goto p s).errT = s.errT := rfl
@[simp] theorem goto_timer (p : Phase) (s : State) : (goto p s).timer = s.timer := rfl
@[simp] theorem goto_issuer (p : Phase) (s : State) : (goto p s).issuer = s.issuer := rfl
@[simp] theorem goto_inputs (p : Phase) (s : State) : (goto p s).inputs = s.inputs := rfl
@[simp] theorem goto_now (p : Phase) (s : State) : (goto p s).now = s.now := rfl
@[simp] theorem goto_trace (p : Phase) (s : State) : (goto p s).trace = s.trace := rfl
@[simp] theorem goto_draws (p : Phase) (s : State) : (goto p s).draws = s.draws := rfl

@[simp] theorem inputsLeft_devAddr (rest : List Input) (s : State) : (inputsLeft rest s).devAddr = s.devAddr := rfl
@[simp] theorem inputsLeft_ready (rest : List Input) (s : State) : (inputsLeft rest s).ready = s.ready := rfl
@[simp] theorem inputsLeft_lock (rest : List Input) (s : State) : (inputsLeft rest s).lock = s.lock := rfl
@[simp] theorem inputsLeft_pend (rest : List Input) (s : State) : (inputsLeft rest s).pend = s.pend := rfl
@[simp] theorem inputsLeft_phase (rest : List Input) (s : State) : (inputsLeft rest s).phase = s.phase := rfl
@[simp] theorem inputsLeft_cur (rest : List Input) (s : State) : (inputsLeft rest s).cur = s.cur := rfl
@[simp] theorem inputsLeft_cmdOpc (rest : List Input) (s : State) : (inputsLeft rest s).cmdOpc = s.cmdOpc := rfl
@[simp] theorem inputsLeft_cmdDly (rest : List Input) (s : State) : (inputsLeft rest s).cmdDly = s.cmdDly := rfl
@[simp] theorem inputsLeft_raw (rest : List Input) (s : State) : (inputsLeft rest s).raw = s.raw := rfl
@[simp] theorem inputsLeft_crcAcc (rest : List Input) (s : State) : (inputsLeft rest s).crcAcc = s.crcAcc := rfl
@[simp] theorem inputsLeft_d (rest : List Input) (s : State) : (inputsLeft rest s).d = s.d := rfl
@[simp] theorem inputsLeft_result (rest : List Input) (s : State) : (inputsLeft rest s).result = s.result := rfl
@[simp] theorem inputsLeft_status (rest : List Input) (s : State) : (inputsLeft rest s).status = s.status := rfl
@[simp] theorem inputsLeft_errExpected (rest : List Input) (s : State) : (inputsLeft rest s).errExpected = s.errExpected := rfl
@[simp] theorem inputsLeft_errActual (rest : List Input) (s : State) : (inputsLeft rest s).errActual = s.errActual := rfl
@[simp] theorem inputsLeft_errT (rest : List Input) (s : State) : (inputsLeft rest s).errT = s.errT := rfl
@[simp] theorem inputsLeft_timer (rest : List Input) (s : State) : (inputsLeft rest s).timer = s.timer := rfl
@[simp] theorem inputsLeft_issuer (rest : List Input) (s : State) : (inputsLeft rest s).issuer = s.issuer := rfl
@[simp] theorem inputsLeft_inputs (rest : List Input) (s : State) : (inputsLeft rest s).inputs = rest := rfl
@[simp] theorem inputsLeft_now (rest : List Input) (s : State) : (inputsLeft rest s).now = s.now := rfl
@[simp] theorem inputsLeft_trace (rest : List Input) (s : State) : (inputsLeft rest s).trace = s.trace := rfl
@[simp] theorem inputsLeft_draws (rest : List Input) (s : State) : (inputsLeft rest s).draws = s.draws := rfl

@[simp] theorem atPort_devAddr (who : Requester) (rest : List Input) (s : State) : (atPort who rest s).devAddr = s.devAddr := rfl
@[simp] theorem atPort_ready (who : Requester) (rest : List Input) (s : State) : (atPort who rest s).ready = s.ready := rfl
@[simp] theorem atPort_lock (who : Requester) (rest : List Input) (s : State) : (atPort who rest s).lock = s.lock := rfl
@[simp] theorem atPort_pend (who : Requester) (rest : List Input) (s : State) : (atPort who rest s).pend = s.pend := rfl
@[simp] theorem atPort_phase (who : Requester) (rest : List Input) (s : State) : (atPort who rest s).phase = s.phase := rfl
@[simp] theorem atPort_cur (who : Requester) (rest : List Input) (s : State) : (atPort who rest s).cur = s.cur := rfl
@[simp] theorem atPort_cmdOpc (who : Requester) (rest : List Input) (s : State) : (atPort who rest s).cmdOpc = s.cmdOpc := rfl
@[simp] theorem atPort_cmdDly (who : Requester) (rest : List Input) (s : State) : (atPort who rest s).cmdDly = s.cmdDly := rfl
@[simp] theorem atPort_raw (who : Requester) (rest : List Input) (s : State) : (atPort who rest s).raw = s.raw := rfl
@[simp] theorem atPort_crcAcc (who : Requester) (rest : List Input) (s : State) : (atPort who rest s).crcAcc = s.crcAcc := rfl
@[simp] theorem atPort_d (who : Requester) (rest : List Input) (s : State) : (atPort who rest s).d = s.d := rfl
@[simp] theorem atPort_result (who : Requester) (rest : List Input) (s : State) : (atPort who rest s).result = s.result := rfl
@[simp] theorem atPort_status (who : Requester) (rest : List Input) (s : State) : (atPort who rest s).status = s.status := rfl
@[simp] theorem atPort_errExpected (who : Requester) (rest : List Input) (s : State) : (atPort who rest s).errExpected = s.errExpected := rfl
@[simp] theorem atPort_errActual (who : Requester) (rest : List Input) (s : State) : (atPort who rest s).errActual = s.errActual := rfl
@[simp] theorem atPort_errT (who : Requester) (rest : List Input) (s : State) : (atPort who rest s).errT = s.errT := rfl
@[simp] theorem atPort_timer (who : Requester) (rest : List Input) (s : State) : (atPort who rest s).timer = s.timer := rfl
@[simp] theorem atPort_issuer (who : Requester) (rest : List Input) (s : State) : (atPort who rest s).issuer = who := rfl
@[simp] theorem atPort_inputs (who : Requester) (rest : List Input) (s : State) : (atPort who rest s).inputs = rest := rfl
@[simp] theorem atPort_now (who : Requester) (rest : List Input) (s : State) : (atPort who rest s).now = s.now := rfl
@[simp] theorem atPort_trace (who : Requester) (rest : List Input) (s : State) : (atPort who rest s).trace = s.trace := rfl
@[simp] theorem atPort_draws (who : Requester) (rest : List Input) (s : State) : (atPort who rest s).draws = s.draws := rfl

@[simp] theorem release_devAddr (s : State) : (release s).devAddr = s.devAddr := rfl
@[simp] theorem release_ready (s : State) : (release s).ready = s.ready := rfl
@[simp] theorem release_lock (s : State) : (release s).lock = .free := rfl
@[simp] theorem release_pend (s : State) : (release s).pend = s.pend := rfl
@[simp] theorem release_phase (s : State) : (release s).phase = s.phase := rfl
@[simp] theorem release_cur (s : State) : (release s).cur = s.cur := rfl
@[simp] theorem release_cmdOpc (s : State) : (release s).cmdOpc = s.cmdOpc := rfl
@[simp] theorem release_cmdDly (s : State) : (release s).cmdDly = s.cmdDly := rfl
@[simp] theorem release_raw (s : State) : (release s).raw = s.raw := rfl
@[simp] theorem release_crcAcc (s : State) : (release s).crcAcc = s.crcAcc := rfl
@[simp] theorem release_d (s : State) : (release s).d = s.d := rfl
@[simp] theorem release_result (s : State) : (release s).result = s.result := rfl
@[simp] theorem release_status (s : State) : (release s).status = s.status := rfl
@[simp] theorem release_errExpected (s : State) : (release s).errExpected = s.errExpected := rfl
@[simp] theorem release_errActual (s : State) : (release s).errActual = s.errActual := rfl
@[simp] theorem release_errT (s : State) : (release s).errT = s.errT := rfl
@[simp] theorem release_timer (s : State) : (release s).timer = s.timer := rfl
@[simp] theorem release_issuer (s : State) : (release s).issuer = s.issuer := rfl
@[simp] theorem release_inputs (s : State) : (release s).inputs = s.inputs := rfl
@[simp] theorem release_now (s : State) : (release s).now = s.now := rfl
@[simp] theorem release_trace (s : State) : (release s).trace = s.trace := rfl
@[simp] theorem release_draws (s : State) : (release s).draws = s.draws := rfl

@[simp] theorem endDelay_devAddr (extra : Nat) (s : State) : (endDelay extra s).devAddr = s.devAddr := rfl
@[simp] theorem endDelay_ready (extra : Nat) (s : State) : (endDelay extra s).ready = s.ready := rfl
@[simp] theorem endDelay_lock (extra : Nat) (s : State) : (endDelay extra s).lock = s.lock := rfl
@[simp] theorem endDelay_pend (extra : Nat) (s : State) : (endDelay extra s).pend = s.pend := rfl
@[simp] theorem endDelay_phase (extra : Nat) (s : State) : (endDelay extra s).phase = s.phase := rfl
@[simp] theorem endDelay_cur (extra : Nat) (s : State) : (endDelay extra s).cur = s.cur := rfl
@[simp] theorem endDelay_cmdOpc (extra : Nat) (s : State) : (endDelay extra s).cmdOpc = s.cmdOpc := rfl
@[simp] theorem endDelay_cmdDly (extra : Nat) (s : State) : (endDelay extra s).cmdDly = s.cmdDly := rfl
@[simp] theorem endDelay_raw (extra : Nat) (s : State) : (endDelay extra s).raw = s.raw := rfl
@[simp] theorem endDelay_crcAcc (extra : Nat) (s : State) : (endDelay extra s).crcAcc = s.crcAcc := rfl
@[simp] theorem endDelay_d (extra : Nat) (s : State) : (endDelay extra s).d = s.d := rfl
@[simp] theorem endDelay_result (extra : Nat) (s : State) : (endDelay extra s).result = s.result := rfl
@[simp] theorem endDelay_status (extra : Nat) (s : State) : (endDelay extra s).status = s.status := rfl
@[simp] theorem endDelay_errExpected (extra : Nat) (s : State) : (endDelay extra s).errExpected = s.errExpected := rfl
@[simp] theorem endDelay_errActual (extra : Nat) (s : State) : (endDelay extra s).errActual = s.errActual := rfl
@[simp] theorem endDelay_errT (extra : Nat) (s : State) : (endDelay extra s).errT = s.errT := rfl
@[simp] theorem endDelay_timer (extra : Nat) (s : State) : (endDelay extra s).timer = 0 := rfl
@[simp] theorem endDelay_issuer (extra : Nat) (s : State) : (endDelay extra s).issuer = s.issuer := rfl
@[simp] theorem endDelay_inputs (extra : Nat) (s : State) : (endDelay extra s).inputs = s.inputs := rfl
@[simp] theorem endDelay_now (extra : Nat) (s : State) : (endDelay extra s).now = s.now + (s.timer + extra) := rfl
@[simp] theorem endDelay_trace (extra : Nat) (s : State) : (endDelay extra s).trace = s.trace := rfl
@[simp] theorem endDelay_draws (extra : Nat) (s : State) : (endDelay extra s).draws = s.draws := rfl

@[simp] theorem passTime_devAddr (us : Nat) (s : State) : (passTime us s).devAddr = s.devAddr := rfl
@[simp] theorem passTime_ready (us : Nat) (s : State) : (passTime us s).ready = s.ready := rfl
@[simp] theorem passTime_lock (us : Nat) (s : State) : (passTime us s).lock = s.lock := rfl
@[simp] theorem passTime_pend (us : Nat) (s : State) : (passTime us s).pend = s.pend := rfl
@[simp] theorem passTime_phase (us : Nat) (s : State) : (passTime us s).phase = s.phase := rfl
@[simp] theorem passTime_cur (us : Nat) (s : State) : (passTime us s).cur = s.cur := rfl
@[simp] theorem passTime_cmdOpc (us : Nat) (s : State) : (passTime us s).cmdOpc = s.cmdOpc := rfl
@[simp] theorem passTime_cmdDly (us : Nat) (s : State) : (passTime us s).cmdDly = s.cmdDly := rfl
@[simp] theorem passTime_raw (us : Nat) (s : State) : (passTime us s).raw = s.raw := rfl
@[simp] theorem passTime_crcAcc (us : Nat) (s : State) : (passTime us s).crcAcc = s.crcAcc := rfl
@[simp] theorem passTime_d (us : Nat) (s : State) : (passTime us s).d = s.d := rfl
@[simp] theorem passTime_result (us : Nat) (s : State) : (passTime us s).result = s.result := rfl
@[simp] theorem passTime_status (us : Nat) (s : State) : (passTime us s).status = s.status := rfl
@[simp] theorem passTime_errExpected (us : Nat) (s : State) : (passTime us s).errExpected = s.errExpected := rfl
@[simp] theorem passTime_errActual (us : Nat) (s : State) : (passTime us s).errActual = s.errActual := rfl
@[simp] theorem passTime_errT (us : Nat) (s : State) : (passTime us s).errT = s.errT := rfl
@[simp] theorem passTime_timer (us : Nat) (s : State) : (passTime us s).timer = s.timer - us := rfl
@[simp] theorem passTime_issuer (us : Nat) (s : State) : (passTime us s).issuer = s.issuer := rfl
@[simp] theorem passTime_inputs (us : Nat) (s : State) : (passTime us s).inputs = s.inputs := rfl
@[simp] theorem passTime_now (us : Nat) (s : State) : (passTime us s).now = s.now + us := rfl
@[simp] theorem passTime_trace (us : Nat) (s : State) : (passTime us s).trace = s.trace := rfl
@[simp] theorem passTime_draws (us : Nat) (s : State) : (passTime us s).draws = s.draws := rfl

@[simp] theorem freeSample_devAddr (s : State) : (freeSample s).devAddr = s.devAddr := rfl
@[simp] theorem freeSample_ready (s : State) : (freeSample s).ready = s.ready := rfl
@[simp] theorem freeSample_lock (s : State) : (freeSample s).lock = s.lock := rfl
@[simp] theorem freeSample_pend (s : State) : (freeSample s).pend = s.pend := rfl
@[simp] theorem freeSample_phase (s : State) : (freeSample s).phase = s.phase := rfl
@[simp] theorem freeSample_cur (s : State) : (freeSample s).cur = s.cur := rfl
@[simp] theorem freeSample_cmdOpc (s : State) : (freeSample s).cmdOpc = s.cmdOpc := rfl
@[simp] theorem freeSample_cmdDly (s : State) : (freeSample s).cmdDly = s.cmdDly := rfl
@[simp] theorem freeSample_raw (s : State) : (freeSample s).raw = ⟨Config.freeByte s.draws, Config.freeByte (s.draws + 1), Config.freeByte (s.draws + 2)⟩ := rfl
@[simp] theorem freeSample_crcAcc (s : State) : (freeSample s).crcAcc = s.crcAcc := rfl
@[simp] theorem freeSample_d (s : State) : (freeSample s).d = s.d := rfl
@[simp] theorem freeSample_result (s : State) : (freeSample s).result = s.result := rfl
@[simp] theorem freeSample_status (s : State) : (freeSample s).status = s.status := rfl
@[simp] theorem freeSample_errExpected (s : State) : (freeSample s).errExpected = s.errExpected := rfl
@[simp] theorem freeSample_errActual (s : State) : (freeSample s).errActual = s.errActual := rfl
@[simp] theorem freeSample_errT (s : State) : (freeSample s).errT = s.errT := rfl
@[simp] theorem freeSample_timer (s : State) : (freeSample s).timer = s.timer := rfl
@[simp] theorem freeSample_issuer (s : State) : (freeSample s).issuer = s.issuer := rfl
@[simp] theorem freeSample_inputs (s : State) : (freeSample s).inputs = s.inputs := rfl
@[simp] theorem freeSample_now (s : State) : (freeSample s).now = s.now := rfl
@[simp] theorem freeSample_trace (s : State) : (freeSample s).trace = s.trace := rfl
@[simp] theorem freeSample_draws (s : State) : (freeSample s).draws = s.draws + 3 := rfl

@[simp] theorem recordEnding_devAddr (x : Ending) (s : State) : (recordEnding x s).devAddr = s.devAddr := by cases x <;> rfl
@[simp] theorem recordEnding_ready (x : Ending) (s : State) : (recordEnding x s).ready = s.ready := by cases x <;> rfl
@[simp] theorem recordEnding_lock (x : Ending) (s : State) : (recordEnding x s).lock = s.lock := by cases x <;> rfl
@[simp] theorem recordEnding_pend (x : Ending) (s : State) : (recordEnding x s).pend = s.pend := by cases x <;> rfl
@[simp] theorem recordEnding_phase (x : Ending) (s : State) : (recordEnding x s).phase = s.phase := by cases x <;> rfl
@[simp] theorem recordEnding_cur (x : Ending) (s : State) : (recordEnding x s).cur = s.cur := by cases x <;> rfl
@[simp] theorem recordEnding_cmdOpc (x : Ending) (s : State) : (recordEnding x s).cmdOpc = s.cmdOpc := by cases x <;> rfl
@[simp] theorem recordEnding_cmdDly (x : Ending) (s : State) : (recordEnding x s).cmdDly = s.cmdDly := by cases x <;> rfl
@[simp] theorem recordEnding_raw (x : Ending) (s : State) : (recordEnding x s).raw = s.raw := by cases x <;> rfl
@[simp] theorem recordEnding_crcAcc (x : Ending) (s : State) : (recordEnding x s).crcAcc = s.crcAcc := by cases x <;> rfl
@[simp] theorem recordEnding_d (x : Ending) (s : State) : (recordEnding x s).d = s.d := by cases x <;> rfl
@[simp] theorem recordEnding_result (x : Ending) (s : State) : (recordEnding x s).result = s.result := by cases x <;> rfl
@[simp] theorem recordEnding_timer (x : Ending) (s : State) : (recordEnding x s).timer = s.timer := by cases x <;> rfl
@[simp] theorem recordEnding_issuer (x : Ending) (s : State) : (recordEnding x s).issuer = s.issuer := by cases x <;> rfl
@[simp] theorem recordEnding_inputs (x : Ending) (s : State) : (recordEnding x s).inputs = s.inputs := by cases x <;> rfl
@[simp] theorem recordEnding_now (x : Ending) (s : State) : (recordEnding x s).now = s.now := by cases x <;> rfl
@[simp] theorem recordEnding_trace (x : Ending) (s : State) : (recordEnding x s).trace = s.trace := by cases x <;> rfl
@[simp] theorem recordEnding_draws (x : Ending) (s : State) : (recordEnding x s).draws = s.draws := by cases x <;> rfl

end Sys2Proof.Machine
end

