-- ==== Sys2Proof/Laws/Sequencer.lean ====
section
/-! SUPPORT. What the sequencer, the guard and a step can do, each said once; the later proofs cite these and unfold nothing. -/

namespace Sys2Proof.Machine

/-! ## The sequencer -/

/-- Every step the sequencer can make, one case for each row of R106. -/
theorem sequencerStep_cases {s t : State} (h : sequencerStep s = some t) :
    (s.phase = .lookup ∧ t = phaseLookup s) ∨
    (s.phase = .write ∧ ∃ a rest, s.inputs = .writeAnswered a :: rest ∧ t = phaseWrite a (inputsLeft rest s)) ∨
    (s.phase = .delay ∧ ∃ extra rest, s.inputs = .wake extra :: rest ∧ t = phaseDelay extra (inputsLeft rest s)) ∨
    (s.phase = .read ∧ ∃ a rest, s.inputs = .readAnswered a :: rest ∧ t = phaseRead a (inputsLeft rest s)) ∨
    (s.phase = .check ∧ t = phaseCheck s) ∨
    (s.phase = .decode ∧ t = phaseDecode s) ∨
    (s.phase = .convert ∧ t = phaseConvert s) ∨
    (s.phase = .respond ∧ t = respond s) := by
  unfold sequencerStep at h
  split at h
  · cases h
  unfold phaseStep at h
  cases hp : s.phase <;> simp only [hp] at h
  all_goals (try split at h)
  all_goals simp_all

theorem resetNext_iff {s : State} : resetNext s = true ↔ s.inputs.head? = some .hardwareReset := by
  unfold resetNext
  cases s.inputs with
  | nil => simp
  | cons x rest => cases x <;> simp

theorem sequencerStep_of_reset {s : State} (h : resetNext s = true) : sequencerStep s = none := by simp [sequencerStep, h]

theorem sequencerStep_of_input {s : State} {x : Input} {rest : List Input} (h : s.inputs = x :: rest) (hx : x ≠ .hardwareReset) :
    sequencerStep s = phaseStep s := by
  have : resetNext s = false := by
    rw [Bool.eq_false_iff, Ne, resetNext_iff]
    simp [h, hx]
  simp [sequencerStep, this]

theorem sequencerStep_of_no_reset {s : State} (h : s.inputs.head? ≠ some .hardwareReset) : sequencerStep s = phaseStep s := by
  have : resetNext s = false := by
    rw [Bool.eq_false_iff, Ne, resetNext_iff]
    exact h
  simp [sequencerStep, this]

theorem sequencerStep_idle {s : State} (h : s.phase = .idle) : sequencerStep s = none := by simp [sequencerStep, phaseStep, h]

/-- In WRITE the sequencer has no step while an answer to its write call is not the next act (R175). -/
theorem sequencerStep_write_none {s : State} (hp : s.phase = .write) (h : ∀ x, s.inputs.head? ≠ some (.writeAnswered x)) :
    sequencerStep s = none := by
  unfold sequencerStep phaseStep
  split
  · rfl
  · simp only [hp]
    split <;> simp_all

/-- In DELAY the sequencer has no step while the end of its delay is not the next act (R175). -/
theorem sequencerStep_delay_none {s : State} (hp : s.phase = .delay) (h : ∀ x, s.inputs.head? ≠ some (.wake x)) :
    sequencerStep s = none := by
  unfold sequencerStep phaseStep
  split
  · rfl
  · simp only [hp]
    split <;> simp_all

/-- In READ the sequencer has no step while an answer to its read call is not the next act (R175). -/
theorem sequencerStep_read_none {s : State} (hp : s.phase = .read) (h : ∀ x, s.inputs.head? ≠ some (.readAnswered x)) :
    sequencerStep s = none := by
  unfold sequencerStep phaseStep
  split
  · rfl
  · simp only [hp]
    split <;> simp_all

/-- What every step of the sequencer keeps, its run keeps. -/
theorem runSequencer_keeps {P : State → Prop} (hstep : ∀ s t, P s → sequencerStep s = some t → P t) (n : Nat) (s : State)
    (h : P s) : P (runSequencer n s) := by
  induction n generalizing s with
  | zero => exact h
  | succ n ih =>
    unfold runSequencer
    split
    · exact h
    · exact ih _ (hstep _ _ h ‹_›)

theorem runCommand_keeps {P : State → Prop} (hstep : ∀ s t, P s → sequencerStep s = some t → P t) (n : Nat) (s : State)
    (h : P s) : P (runCommand n s) := by
  induction n generalizing s with
  | zero => exact h
  | succ n ih =>
    unfold runCommand
    split
    · split
      · exact h
      · exact ih _ (hstep _ _ h ‹_›)
    · exact h

/-! ## The guard -/

/-- An admission takes the free guard for a pending request, and nothing else is an admission (R22). -/
theorem admission_some {who : Requester} {s t : State} (h : admission who s = some t) :
    s.lock = .free ∧ ∃ op, s.pend.get who = some op ∧ t = acquire who op s := by
  unfold admission at h
  split at h <;> simp_all

theorem admission_free {who : Requester} {op : GuardedOp} {s : State} (hl : s.lock = .free) (hp : s.pend.get who = some op) :
    admission who s = some (acquire who op s) := by
  simp [admission, hl, hp]

/-- A guarded request only enters `PEND`, or it is also admitted and runs (R22, R105). -/
theorem call_cases (op : GuardedOp) (s : State) :
    call op s = { s with pend := s.pend.put s.issuer op } ∨
    (s.lock = .free ∧ ∃ rest, s.inputs = .grant s.issuer :: rest ∧
      call op s = runTransaction (acquire s.issuer op (inputsLeft rest { s with pend := s.pend.put s.issuer op }))) := by
  unfold call
  simp only
  split
  · rename_i who rest hin
    split
    · rename_i hw
      split
      · rename_i s2 hs2
        obtain ⟨hl, op', hget, rfl⟩ := admission_some hs2
        subst hw
        have : op' = op := by
          simpa [inputsLeft, Pending.get_put_self] using hget.symm
        subst this
        exact .inr ⟨hl, rest, hin, rfl⟩
      · exact .inl rfl
    · exact .inl rfl
  · exact .inl rfl

/-- A guarded call made where the guard is free and its next act is to admit this requester. -/
theorem call_admitted {op : GuardedOp} {s : State} {rest : List Input} (hl : s.lock = .free)
    (hin : s.inputs = .grant s.issuer :: rest) :
    call op s = runTransaction (acquire s.issuer op (inputsLeft rest { s with pend := s.pend.put s.issuer op })) := by
  unfold call
  simp only [hin, if_true]
  rw [admission_free (op := op) (by simpa using hl) (by simpa using Pending.get_put_self _ _ _)]

/-! ## Instructions -/

/-- What an instruction does that answers a next state: a guarded call, a pure answer, or a sensor command on its way. -/
theorem exec_cases {i : Instr} {s t : State} (h : exec i s = .next t) :
    (∃ op, i.guarded = some op ∧ t = call op s ∧ outstanding s s.issuer = false ∧
      (if op.isInit then s.ready = false ∧ initOutstanding s = false else s.ready = true)) ∨
    (i.isHost = true ∧ i.guarded = none ∧ ∃ r, t = answerPure r s) ∨
    (i.isHost = false ∧ s.phase = .write ∧ t = runCommand 3 s) := by
  cases i <;>
    simp only [exec, execInit, execReset, execRdTempC, execRdTempF, execRdHum, execCrcValidate, execCmdLookup, execSoftReset,
      execTrigTempNohold, execTrigHumNohold, execReadUserReg, execWriteUserReg, callReady, carryOut] at h
  all_goals (try split at h)
  all_goals (try split at h)
  all_goals (try split at h)
  all_goals (try split at h)
  all_goals (try (cases h))
  all_goals simp_all [Instr.guarded, Instr.isHost, GuardedOp.isInit, addrOperand]
  all_goals exact ⟨_, rfl⟩

/-! ## One step -/

/-- Everything a step can be that answers a next state. -/
theorem step_cases {s t : State} (h : step s = .next t) :
    (s.phase.waits = false ∧ s.inputs.head? ≠ some .hardwareReset ∧
      (sequencerStep s = some t ∨ (sequencerStep s = none ∧ t = s))) ∨
    ((s.phase.waits = true ∨ s.inputs.head? = some .hardwareReset) ∧
      ((s.inputs = [] ∧ t = s) ∨
       (∃ who frame rest i, s.inputs = .request who frame :: rest ∧ decodeFrame frame = .ok i [] ∧
          exec i (atPort who rest s) = .next t) ∨
       (∃ who rest, s.inputs = .grant who :: rest ∧ admission who (inputsLeft rest s) = some t) ∨
       (∃ a rest i, s.inputs = .writeAnswered a :: rest ∧ s.phase = .write ∧ decodeCommand s.cmdOpc = some i ∧
          exec i s = .next t) ∨
       (∃ extra rest, s.inputs = .wake extra :: rest ∧ s.phase = .delay ∧ sequencerStep s = some t) ∨
       (∃ a rest, s.inputs = .readAnswered a :: rest ∧ s.phase = .read ∧ sequencerStep s = some t) ∨
       (∃ us rest, s.inputs = .advance us :: rest ∧ t = passTime us (inputsLeft rest s)) ∨
       (∃ rest, s.inputs = .hardwareReset :: rest ∧ t = resetBlock (inputsLeft rest s)))) := by
  unfold step at h
  unfold nextAct at h
  cases hw : s.phase.waits || resetNext s
  · simp only [hw, Bool.false_eq_true, if_false] at h
    rw [Bool.or_eq_false_iff] at hw
    refine .inl ⟨hw.1, fun hr => by simp [resetNext_iff.2 hr] at hw, ?_⟩
    cases hs : sequencerStep s <;> simp only [hs] at h
    · cases h; exact .inr ⟨rfl, rfl⟩
    · cases h; exact .inl rfl
  · simp only [hw, if_true] at h
    rw [Bool.or_eq_true, resetNext_iff] at hw
    refine .inr ⟨hw, ?_⟩
    unfold nextInput at h
    cases hin : s.inputs with
    | nil => simp only [hin] at h; cases h; exact .inl ⟨rfl, rfl⟩
    | cons x rest =>
      refine .inr ?_
      cases x with
      | request who frame =>
        refine .inl ⟨who, frame, rest, ?_⟩
        cases hd : decodeFrame frame with
        | ok i r =>
          simp only [hin, hd] at h
          have hr : r = [] := by
            unfold decodeFrame at hd
            split at hd <;> simp_all
          exact ⟨i, rfl, hr ▸ rfl, h⟩
        | bad e => simp only [hin, hd] at h; cases h
      | grant who =>
        refine .inr (.inl ⟨who, rest, rfl, ?_⟩)
        cases ha : admission who (inputsLeft rest s) with
        | none => simp only [hin, ha] at h; cases h
        | some s' => simp only [hin, ha] at h; cases h; rfl
      | writeAnswered a =>
        refine .inr (.inr (.inl ⟨a, rest, ?_⟩))
        by_cases hp : s.phase = .write
        · cases hd : decodeCommand s.cmdOpc with
          | none => simp only [hin, hp, hd, if_true] at h; cases h
          | some i => simp only [hin, hp, hd, if_true] at h; exact ⟨i, rfl, hp, rfl, h⟩
        · simp only [hin, hp, if_false] at h; cases h
      | wake extra =>
        refine .inr (.inr (.inr (.inl ⟨extra, rest, rfl, ?_⟩)))
        by_cases hp : s.phase = .delay
        · simp only [hin, hp, if_true] at h
          cases h
          exact ⟨hp, by simp [sequencerStep_of_input hin, phaseStep, hp, hin]⟩
        · simp only [hin, hp, if_false] at h; cases h
      | readAnswered a =>
        refine .inr (.inr (.inr (.inr (.inl ⟨a, rest, rfl, ?_⟩))))
        by_cases hp : s.phase = .read
        · simp only [hin, hp, if_true] at h
          cases h
          exact ⟨hp, by simp [sequencerStep_of_input hin, phaseStep, hp, hin]⟩
        · simp only [hin, hp, if_false] at h; cases h
      | advance us =>
        simp only [hin] at h
        cases h
        exact .inr (.inr (.inr (.inr (.inr (.inl ⟨us, rest, rfl, rfl⟩)))))
      | hardwareReset =>
        simp only [hin] at h
        cases h
        exact .inr (.inr (.inr (.inr (.inr (.inr ⟨rest, rfl, rfl⟩)))))

/-- A property that each kind of move keeps is kept by every step: the sequencer's rows, taking a request or an input, `PEND`, an
admission, a pure answer, time, and the hardware reset. -/
theorem step_keeps {P : State → Prop} (hseq : ∀ s t, P s → sequencerStep s = some t → P t)
    (hport : ∀ s who rest, P s → P (atPort who rest s)) (hleft : ∀ s rest, P s → P (inputsLeft rest s))
    (hput : ∀ s p, P s → P { s with pend := p }) (hacq : ∀ s who op, P s → s.lock = .free → P (acquire who op s))
    (hpure : ∀ s r, P s → P (answerPure r s)) (htime : ∀ s us, P s → P (passTime us s))
    (hreset : ∀ s rest, P s → P (resetBlock (inputsLeft rest s))) {s t : State} (hs : P s) (h : step s = .next t) : P t := by
  have hex : ∀ i s t, P s → exec i s = .next t → P t := by
    intro i s t hs h
    rcases exec_cases h with ⟨op, _, rfl, ho, ha⟩ | ⟨_, _, r, rfl⟩ | ⟨_, _, rfl⟩
    · rcases call_cases op s with hcall | ⟨hlk, rest, hin, hcall⟩
      · rw [hcall]; exact hput _ _ hs
      · rw [hcall]; exact runSequencer_keeps hseq _ _ (hacq _ _ _ (hleft _ _ (hput _ _ hs)) hlk)
    · exact hpure _ _ hs
    · exact runCommand_keeps hseq _ _ hs
  rcases step_cases h with ⟨_, _, h | ⟨_, rfl⟩⟩ | ⟨hw, ⟨_, rfl⟩ | ⟨who, frame, rest, i, _, _, h⟩ | ⟨who, rest, _, h⟩ |
    ⟨_, _, _, _, _, _, h⟩ | ⟨_, _, _, _, h⟩ | ⟨_, _, _, _, h⟩ | ⟨us, rest, _, rfl⟩ | ⟨rest, _, rfl⟩⟩
  · exact hseq _ _ hs h
  · exact hs
  · exact hs
  · exact hex _ _ _ (hport _ _ _ hs) h
  · obtain ⟨hl, op, hg, rfl⟩ := admission_some h
    exact hacq _ _ _ (hleft _ _ hs) hl
  · exact hex _ _ _ hs h
  · exact hseq _ _ hs h
  · exact hseq _ _ hs h
  · exact htime _ _ (hleft _ _ hs)
  · exact hreset _ _ hs

end Sys2Proof.Machine
end

