-- ==== Sys2Proof/Tests/Slice0.lean ====
section
/-! SUPPORT. Tests of the model against the worked examples of 95_test_vectors.md, and for every statement with hypotheses a
concrete case that meets them all. No expected value here was taken from the model. -/

open Sys2Proof Sys2Proof.Machine Sys2Proof.Safety

namespace Sys2Proof.Tests

/-! ## Helpers -/

/-- The state an outcome goes on in. -/
def nextState : Host.Outcome State Fault Refusal → Option State
  | .next s => some s
  | .fault _ => none
  | .refused _ => none

/-- The refusal an outcome stops with. -/
def refusal : Host.Outcome State Fault Refusal → Option Refusal
  | .next _ => none
  | .fault _ => none
  | .refused r => some r

/-- A block at rest, bound to 0x40, with the first requester at the port and this before it. -/
def atDoor (ready : Bool) (inputs : List Input) : State :=
  { State.reset with ready := ready, devAddr := 0x40, issuer := .first, inputs := inputs }

/-- A block with the first requester's operation under way, in this phase, its command loaded. -/
def under (phase : Phase) (op : GuardedOp) (inputs : List Input) : State :=
  { atDoor true inputs with
    phase := phase
    lock := .held .first
    cur := ⟨op, .first⟩
    cmdOpc := wireByte op
    cmdDly := BitVec.ofNat 8 (leastDelayMs op) }

/-- What a requester issues and the guard admits at once, the transport accepting the write. -/
def accepted (rest : List Input) : List Input := .grant .first :: .writeAnswered .ok :: .wake 0 :: rest

/-- The newest event seen. -/
def lastEvent (o : Host.Outcome State Fault Refusal) : Option Event :=
  (nextState o).bind fun s => s.trace.head?.map Observed.event

/-! ## Ill-formed terms are refused -/

theorem test_init_addr7_illFormed : (Instr.init 0x80).wf = false := by decide
theorem test_lookup_selector5_illFormed : (Instr.cmdLookup 5).wf = false := by decide
theorem test_crc_256_bytes_illFormed : (Instr.crcValidate (List.replicate 256 0) 0).wf = false := by decide +kernel
theorem test_crc_255_bytes_wellFormed : (Instr.crcValidate (List.replicate 255 0) 0).wf = true := by decide +kernel
theorem test_init_addr7_refused : refusal (exec (.init 0xC0) State.reset) = some .illegalAddress := by decide
theorem test_lookup_selector5_refused : refusal (exec (.cmdLookup 5) State.reset) = some .illegalSelector := by decide

/-! ## Words written out from 30_encoding.md R63, R64, R69 and from the opcode table -/

theorem test_decode_init : decodeFrame [0b00000000, 0b01000000] = .ok (.init 0x40) [] := by decide
theorem test_decode_reset : decodeFrame [0b00000001] = .ok .reset [] := by decide
theorem test_decode_rdTempC : decodeFrame [0b00000010] = .ok .rdTempC [] := by decide
theorem test_decode_rdTempF : decodeFrame [0b00000011] = .ok .rdTempF [] := by decide
theorem test_decode_rdHum : decodeFrame [0b00000100] = .ok .rdHum [] := by decide
theorem test_decode_crcValidate :
    decodeFrame [0b00000101, 0b00000010, 0x68, 0x3A, 0x7C] = .ok (.crcValidate [0x68, 0x3A] 0x7C) [] := by decide
theorem test_decode_cmdLookup : decodeFrame [0b00000110, 0b00000100] = .ok (.cmdLookup 4) [] := by decide
theorem test_decode_softReset : decodeCommandWith 0xE7 0xE6 0b11111110 = some .softReset := by decide
theorem test_decode_trigTempNohold : decodeCommandWith 0xE7 0xE6 0b11110011 = some .trigTempNohold := by decide
theorem test_decode_trigHumNohold : decodeCommandWith 0xE7 0xE6 0b11110101 = some .trigHumNohold := by decide
theorem test_decode_readUserReg : decodeCommandWith 0xE7 0xE6 0b11100111 = some .readUserReg := by decide
theorem test_decode_writeUserReg : decodeCommandWith 0xE7 0xE6 0b11100110 = some .writeUserReg := by decide
theorem test_decode_other_byte : decodeCommandWith 0xE7 0xE6 0x00 = none := by decide
theorem test_decode_reserved : decodeFrame [0x07] = .bad (.reservedOperation 0x07) := by decide
theorem test_decode_addr7 : decodeFrame [0x00, 0xC0] = .bad .addressBit7 := by decide
theorem test_decode_selector5 : decodeFrame [0x06, 0x05] = .bad .selectorAbove4 := by decide
theorem test_table_init : decodeTableWord 16 0x0040 = some (.init 0x40) := by decide
theorem test_table_crcValidate : decodeTableWord 24 0x310005 = some (.crcValidate [] 0x31) := by decide
theorem test_table_cmdLookup : decodeTableWord 16 0x0603 = some (.cmdLookup 3) := by decide
theorem test_table_trigHumNohold : decodeTableWord 8 0xF5 = some .trigHumNohold := by decide

/-! ## One step, from 95_test_vectors.md -/

/-- V3.1. -/
theorem test_init : ((nextState (exec (.init 0x40) (atDoor false (accepted [])))).map fun s =>
    (s.ready, s.devAddr, s.lock, s.phase, s.now)) = some (true, 0x40, .free, .idle, 15000) := by decide
/-- V3.2. -/
theorem test_init_write_fails (e : TErr) :
    ((nextState (exec (.init 0x40) (atDoor false [.grant .first, .writeAnswered (.err e)]))).map fun s =>
      (s.ready, s.now, s.errT, s.trace.head?.map Observed.event)) =
        some (false, 0, e, some (.response .first (.transport e))) := rfl
/-- V3.3. -/
theorem test_reset : ((nextState (exec .reset (atDoor true (accepted [])))).map fun s => s.trace.map Observed.event) =
    some [.response .first .ok, .writeAnswer .ok, .writeCall 0x40 [0xFE], .admitted ⟨.reset, .first⟩] := by decide
/-- V3.13. -/
theorem test_reset_without_handle : refusal (exec .reset State.reset) = some .notReady := by decide
/-- V3.7. -/
theorem test_rdTempC : lastEvent (exec .rdTempC (atDoor true (accepted [.readAnswered (.ok ⟨0x7C, 0xA7, 0xE4⟩)]))) =
    some (.response .first (.okValue 0x421AD93D)) := by decide +kernel
/-- V3.6. -/
theorem test_rdTempC_bad_frame :
    lastEvent (exec .rdTempC (atDoor true (accepted [.readAnswered (.ok ⟨0x7C, 0xA7, 0xE5⟩)]))) =
      some (.response .first (.checksum 0xE5 0xE4)) := by decide
/-- V3.8. -/
theorem test_rdTempF : lastEvent (exec .rdTempF (atDoor true (accepted [.readAnswered (.ok ⟨0x7C, 0xA7, 0xE4⟩)]))) =
    some (.response .first (.okValue 0x42CB5D1D)) := by decide +kernel
/-- P6, step 2. -/
theorem test_rdTempF_silent_bus : lastEvent (exec .rdTempF (atDoor true (accepted [.readAnswered (.ok ⟨0, 0, 0⟩)]))) =
    some (.response .first (.okValue 0xC25151EB)) := by decide +kernel
/-- V3.9. -/
theorem test_rdHum : ((nextState (exec .rdHum (atDoor true (accepted [.readAnswered (.ok ⟨0x80, 0x00, 0x23⟩)])))).map fun s =>
    (s.result, s.d, s.now)) = some (0x42620000, 0x8000, 16000) := by decide +kernel
/-- V3.5. -/
theorem test_rdHum_read_fails (e : TErr) :
    ((nextState (exec .rdHum (atDoor true (accepted [.readAnswered (.err e)])))).map fun s =>
      (s.trace.head?.map Observed.event, s.result, s.d)) = some (some (.response .first (.transport e)), 0, 0) := rfl
/-- V1.23. -/
theorem test_crcValidate : lastEvent (exec (.crcValidate [0x68, 0x3A] 0x7C) State.reset) = some (.pureResponse .first .ok) := by
  decide
/-- V1.24. -/
theorem test_crcValidate_wrong :
    lastEvent (exec (.crcValidate [0x68, 0x3A] 0x7D) State.reset) = some (.pureResponse .first (.checksum 0x7D 0x7C)) := by decide
/-- V2.2. -/
theorem test_cmdLookup : lastEvent (exec (.cmdLookup 1) State.reset) = some (.pureResponse .first (.okCommand 0xF3 50)) := by decide
/-- R96 with the delay of V2.1. -/
theorem test_softReset : ((nextState (exec .softReset (under .write .reset [.writeAnswered .ok]))).map fun s =>
    (s.phase, s.timer)) = some (.delay, 15000) := by decide
/-- R97, V5.1, V5.2: the read call no earlier than 50 ms, here 7 ms later than that. -/
theorem test_trigTempNohold :
    ((nextState (exec .trigTempNohold (under .write .rdTempC [.writeAnswered .ok, .wake 7000]))).map fun s =>
      (s.phase, s.trace.head?)) = some (.read, some ⟨57000, .readCall 0x40 3⟩) := by decide
/-- R98, V5.3. -/
theorem test_trigHumNohold :
    ((nextState (exec .trigHumNohold (under .write .rdHum [.writeAnswered .ok, .wake 0]))).map fun s =>
      (s.phase, s.trace.head?)) = some (.read, some ⟨16000, .readCall 0x40 3⟩) := by decide
theorem test_trig_not_loaded : refusal (exec .trigHumNohold (under .write .rdTempC [.writeAnswered .ok])) =
    some .commandNotLoaded := by decide
/-- R121: a pure operation while another requester's transaction waits. -/
theorem test_pure_during_transaction :
    ((nextState (step (under .delay .rdHum [.request .first [0x06, 0x02]]))).map fun s => (s.phase, s.trace.head?.map Observed.event)) =
      some (.delay, some (.pureResponse .first (.okCommand 0xF5 16))) := by decide
/-- R181, between the read's answer and its check. -/
theorem test_hardwareReset_in_check :
    ((nextState (step (under .check .rdHum [.hardwareReset]))).map fun s => (s.phase, s.lock, s.ready)) =
      some (.idle, .free, false) := by decide

/-! ## The CRC, the decode and the converter on the vectors (V1, V4) -/

theorem test_crc_vectors :
    crc8 [] = 0x00 ∧ crc8 [0xDC] = 0x79 ∧ crc8 [0x01, 0x00] = 0xF4 ∧ crc8 [0x3A, 0x68] = 0x5E ∧ crc8 [0x4E, 0x85] = 0x6B ∧
      crc8 [0x31, 0x32, 0x33, 0x34, 0x35, 0x36, 0x37, 0x38, 0x39] = 0xA2 ∧ crc8 [0x26, 0xBF] = 0x17 := by decide
theorem test_crc_longest : crc8 (List.replicate 255 0xFF) = 0xAC := by decide +kernel
theorem test_decode16 : decode16 0xA7 0x7C = 42876 ∧ decode16 0x00 0xFF = 255 ∧ decode16 0xFF 0x00 = 65280 := by decide
theorem test_fahrenheit_nearest_zero : convTempF32 (convTempC32 10843) = 0x3AC5599A := by decide +kernel
theorem test_conversions_at_20101 :
    convTempC32 20101 = 0x40E17B44 ∧ convTempF32 (convTempC32 20101) = 0x4232BBBC ∧ convHum32 20101 = 0x42015BC4 := by
  decide +kernel

/-! ## A table word is fetched and run -/

theorem test_fetch_init : ((nextState (step (State.reset.withFetchWord 16 0x0041))).map fun s => (s.phase, s.cur, s.devAddr)) =
    some (.write, ⟨.init 0x41, .first⟩, 0x41) := by decide
theorem test_fetch_rdTempC : ((nextState (step (State.reset.withFetchWord 8 0x02))).map fun s => (s.phase, s.cur, s.cmdOpc)) =
    some (.write, ⟨.rdTempC, .first⟩, 0xF3) := by decide
theorem test_fetch_crcValidate : lastEvent (step (State.reset.withFetchWord 8 0x05)) = some (.pureResponse .first .ok) := by decide
theorem test_fetch_cmdLookup : lastEvent (step (State.reset.withFetchWord 16 0x0602)) =
    some (.pureResponse .first (.okCommand 0xF5 16)) := by decide
theorem test_fetch_trigTempNohold : ((nextState (step (State.reset.withFetchWord 8 0xF3))).map fun s => (s.phase, s.timer)) =
    some (.delay, 50000) := by decide

/-! ## Every statement's hypotheses are met by a concrete case -/

theorem witness_HostRequestsSurviveEncoding :
    ∀ i ∈ [Instr.init 0x7F, .init 0, .reset, .rdTempC, .rdTempF, .rdHum, .crcValidate [] 0, .crcValidate (List.replicate 255 1) 9,
      .cmdLookup 4], i.isHost = true ∧ i.wf = true := by decide +kernel

theorem witness_AcceptedRequestsAreEncodings :
    decodeRequest [0x05, 0x01, 0x01, 0x31, 0xAA] = .ok (.crcValidate [0x01] 0x31) [0xAA] ∧
    decodeRequest [0x00, 0x7F] = .ok (.init 0x7F) [] ∧ decodeRequest [0x06, 0x04] = .ok (.cmdLookup 4) [] := by decide

theorem witness_CommandBytesSurviveEncoding :
    [0xFE#8, 0xF3#8, 0xF5#8, 0xE7#8, 0xE6#8].Nodup ∧
    ∀ i ∈ [Instr.softReset, .trigTempNohold, .trigHumNohold, .readUserReg, .writeUserReg], i.isHost = false := by decide

theorem witness_MeaninglessRequestsAreRefused_reserved (op : Byte) (h : op = 0x07 ∨ op = 0xFF) :
    let s := atDoor false [.request .first [op]]
    s.phase.waits = true ∧ s.inputs = .request .first (op :: []) :: [] ∧ 7 ≤ op.toNat := by
  rcases h with rfl | rfl <;> exact ⟨rfl, rfl, by decide⟩

theorem witness_MeaninglessRequestsAreRefused_addr7 :
    let s := atDoor false [.request .first [0x00, 0x80]]
    s.phase.waits = true ∧ s.inputs = .request .first (0x00 :: 0x80 :: []) :: [] ∧ (0x80#8).msb = true := by
  exact ⟨rfl, rfl, by decide⟩

theorem witness_MeaninglessRequestsAreRefused_selector :
    let s := atDoor false [.request .first [0x06, 0x05]]
    s.phase.waits = true ∧ s.inputs = .request .first (0x06 :: 0x05 :: []) :: [] ∧ 5 ≤ (0x05#8).toNat := by
  exact ⟨rfl, rfl, by decide⟩

theorem witness_MeaninglessRequestsAreRefused_crc : (List.replicate 255 0x00#8).length = (0xFF#8).toNat := by decide +kernel

theorem witness_StepRunsTheDecodedRequest :
    let s := under .read .rdHum [.request .first [0x00, 0x7F]]
    s.phase.waits = true ∧ s.inputs = .request .first [0x00, 0x7F] :: [] ∧ decodeFrame [0x00, 0x7F] = .ok (.init 0x7F) [] := by
  exact ⟨rfl, rfl, by decide⟩

theorem witness_StepRunsTheLoadedCommand :
    let s := under .write .rdHum [.writeAnswered .ok]
    s.phase = .write ∧ s.inputs = .writeAnswered .ok :: [] ∧ decodeCommand s.cmdOpc = some .trigHumNohold := by
  exact ⟨rfl, rfl, by decide⟩

theorem witness_ChecksumFunction : [0x68#8, 0x3A#8].length = [0x4E#8, 0x85#8].length := by decide

theorem witness_CmdLookupAnswers : (0x04#8).toNat ≤ 4 ∧ 5 ≤ (0x05#8).toNat ∧ 5 ≤ (0xFF#8).toNat := by decide

theorem witness_DecodeIsBigEndian : (0x7C#8) ≠ 0xA7#8 := by decide

theorem witness_OneWrongByteIsAlwaysCaught : (0x00#8) ≠ 0xFF#8 := by decide

theorem witness_CrcValidateAnswers :
    crc8 [0x68, 0x3A] = 0x7C ∧ crc8 [0x68, 0x3A] ≠ 0x7D ∧ crc8 [] = 0x00 ∧ crc8 (List.replicate 255 0xFF) = 0xAC := by
  decide +kernel

theorem witness_RoundingIsToNearestEven :
    ∀ q ∈ [(1 / 2 ^ 14 : ℚ), 511, -1 / 3, 16777919 / 1048576], (1 / 2 ^ 14 ≤ |q| ∧ |q| < 2 ^ 9) ∧ isFinite32 0x7F7FFFFF = true := by
  decide +kernel

/-- V4.7: a tie, rounded to the even significand, with the other neighbour equally near. -/
theorem witness_RoundingIsToNearestEven_tie :
    |val32 0x4180015F - 16777919 / 1048576| = |val32 (rne32 (16777919 / 1048576)) - 16777919 / 1048576| ∧
      val32 0x4180015F ≠ val32 (rne32 (16777919 / 1048576)) := by
  decide +kernel

theorem witness_ConversionsStrictlyIncrease : (0 : Raw16).toNat < (1 : Raw16).toNat ∧ (0xFFFE : Raw16).toNat < (0xFFFF : Raw16).toNat := by
  decide

theorem witness_ResultsAreNormalNumbers : convHum32 0 ∈ [convTempC32 0, convTempF32 (convTempC32 0), convHum32 0] := by simp

theorem witness_InitBindsTheAddressAndMakesReady :
    let s := atDoor false (accepted [])
    (0x7F#8).msb = false ∧ s.ready = false ∧ initOutstanding s = false ∧ quietFor s ∧
      s.inputs = .grant s.issuer :: .writeAnswered .ok :: .wake 0 :: [] ∧ ([] : List Input).head? ≠ some .hardwareReset :=
  ⟨by decide, rfl, rfl, ⟨rfl, rfl, rfl⟩, rfl, by decide⟩

theorem witness_ResetWritesWaitsAndReadsNothing :
    let s := atDoor true (accepted [])
    s.ready = true ∧ quietFor s ∧ s.inputs = .grant s.issuer :: .writeAnswered .ok :: .wake 0 :: [] ∧
      ([] : List Input).head? ≠ some .hardwareReset :=
  ⟨rfl, ⟨rfl, rfl, rfl⟩, rfl, by decide⟩

/-- For the three readings; the frame is V4.13's. -/
theorem witness_readings :
    let s := atDoor true (accepted [.readAnswered (.ok ⟨0x7C, 0xA7, 0xE4⟩), .request .first [0x01]])
    s.ready = true ∧ quietFor s ∧
      s.inputs = .grant s.issuer :: .writeAnswered .ok :: .wake 0 :: .readAnswered (.ok ⟨0x7C, 0xA7, 0xE4⟩) :: [.request .first [0x01]] ∧
      [Input.request .first [0x01]].head? ≠ some .hardwareReset ∧ crc8 [0x7C, 0xA7] = 0xE4 :=
  ⟨rfl, ⟨rfl, rfl, rfl⟩, rfl, by decide, by decide⟩

theorem witness_WriteFailureEndsTheOperationAtOnce_handle (op : GuardedOp) (h : op ∈ [.reset, .rdTempC, .rdTempF, .rdHum]) :
    let s := atDoor true [.grant .first, .writeAnswered (.err .first)]
    admissible op s ∧ quietFor s ∧ s.inputs = .grant s.issuer :: .writeAnswered (.err .first) :: [] ∧
      ([] : List Input).head? ≠ some .hardwareReset := by
  refine ⟨?_, ⟨rfl, rfl, rfl⟩, rfl, by decide⟩
  simp only [List.mem_cons, List.mem_nil_iff, or_false] at h
  rcases h with rfl | rfl | rfl | rfl <;> rfl

theorem witness_WriteFailureEndsTheOperationAtOnce_init :
    let s := atDoor false [.grant .first, .writeAnswered (.err .first)]
    admissible (.init 0x7F) s ∧ quietFor s ∧ s.inputs = .grant s.issuer :: .writeAnswered (.err .first) :: [] ∧
      ([] : List Input).head? ≠ some .hardwareReset :=
  ⟨⟨rfl, rfl⟩, ⟨rfl, rfl, rfl⟩, rfl, by decide⟩

theorem witness_ReadFailureEndsTheMeasurement :
    let s := atDoor true (accepted [.readAnswered (.err .first)])
    readsFrame .rdHum = true ∧ s.ready = true ∧ quietFor s ∧
      s.inputs = .grant s.issuer :: .writeAnswered .ok :: .wake 0 :: .readAnswered (.err .first) :: [] ∧
      ([] : List Input).head? ≠ some .hardwareReset :=
  ⟨rfl, rfl, ⟨rfl, rfl, rfl⟩, rfl, by decide⟩

/-- The all-ones frame, V3.11. -/
theorem witness_CheckFailureEndsTheMeasurement :
    let s := atDoor true (accepted [.readAnswered (.ok ⟨0xFF, 0xFF, 0xFF⟩)])
    readsFrame .rdHum = true ∧ s.ready = true ∧ quietFor s ∧
      s.inputs = .grant s.issuer :: .writeAnswered .ok :: .wake 0 :: .readAnswered (.ok ⟨0xFF, 0xFF, 0xFF⟩) :: [] ∧
      ([] : List Input).head? ≠ some .hardwareReset ∧ crc8 [0xFF, 0xFF] ≠ 0xFF :=
  ⟨rfl, rfl, ⟨rfl, rfl, rfl⟩, rfl, by decide, by decide⟩

theorem witness_InadmissibleRequestsAreRefused :
    (atDoor false []).ready = false ∧ (atDoor true []).ready = true ∧ (0x7F#8).msb = false ∧
    (let s := { atDoor false [] with pend := [(.first, .init 0x40)] }
     s.ready = false ∧ initOutstanding s = true) := by decide

/-- In a block with more than one requester (`N_REQ` is open). -/
theorem witness_RequestWaitsForTheGuard_held (h : 2 ≤ Config.nReq) :
    let s := { under .delay .rdHum [] with issuer := ⟨1, h⟩ }
    admissible .rdTempC s ∧ s.pend.get s.issuer = none ∧ s.lock ≠ .held s.issuer ∧ ∃ other, s.lock = .held other :=
  ⟨rfl, rfl, by simp [under, atDoor, Requester.first, Fin.ext_iff], .first, rfl⟩

theorem witness_RequestWaitsForTheGuard_free :
    let s := atDoor true []
    admissible .rdTempC s ∧ s.pend.get s.issuer = none ∧ s.lock ≠ .held s.issuer ∧ s.inputs.head? ≠ some (.grant s.issuer) :=
  ⟨rfl, rfl, by decide, by decide⟩

theorem witness_AnyPendingRequestMayBeAdmitted :
    let s := { atDoor true [.grant .first] with pend := [(.first, .rdTempC)] }
    s.phase = .idle ∧ s.lock = .free ∧ s.inputs = .grant .first :: [] ∧ s.pend.get .first = some .rdTempC :=
  ⟨rfl, rfl, rfl, rfl⟩

/-- P4: where there are two requesters, both wait and the second may be admitted first. -/
theorem witness_AnyPendingRequestMayBeAdmitted_second (h : 2 ≤ Config.nReq) :
    let s := { atDoor true [.grant ⟨1, h⟩] with pend := [(.first, .rdTempC), (⟨1, h⟩, .rdHum)] }
    s.phase = .idle ∧ s.lock = .free ∧ s.inputs = .grant ⟨1, h⟩ :: [] ∧ s.pend.get ⟨1, h⟩ = some .rdHum :=
  ⟨rfl, rfl, rfl, rfl⟩

theorem witness_SoftResetWaitsAndReadsNothing (op : GuardedOp) (h : op ∈ [.reset, .init 0x7F]) :
    let s := under .write op [.writeAnswered .ok]
    let s' := under .write op [.writeAnswered .ok, .wake 3]
    (s.phase = .write ∧ s.cmdOpc = 0xFE ∧ s.cmdDly = 15 ∧ s.cur.op.selector = .softReset ∧
      s.inputs = .writeAnswered .ok :: [] ∧ ∀ extra, ([] : List Input).head? ≠ some (.wake extra)) ∧
    (s'.phase = .write ∧ s'.cmdOpc = 0xFE ∧ s'.cmdDly = 15 ∧ s'.cur.op.selector = .softReset ∧
      s'.inputs = .writeAnswered .ok :: .wake 3 :: []) := by
  simp only [List.mem_cons, List.mem_nil_iff, or_false] at h
  rcases h with rfl | rfl <;> exact ⟨⟨rfl, rfl, rfl, rfl, rfl, by simp⟩, rfl, rfl, rfl, rfl, rfl⟩

/-- The four clauses differ in what follows the write's answer. -/
theorem witness_TriggersWaitAndReadTheFrame (follows : List Input)
    (h : follows ∈ [[], [.wake 0], [.wake 0, .readAnswered (.ok ⟨1, 2, 3⟩)], [.wake 0, .readAnswered (.err .first)]]) :
    let s (op : GuardedOp) := under .write op (.writeAnswered .ok :: follows)
    ((s .rdTempF).phase = .write ∧ (s .rdTempF).cmdOpc = 0xF3 ∧ (s .rdTempF).cmdDly = 50 ∧
      (s .rdTempF).cur.op.selector = .trigTempNohold ∧ (s .rdTempF).inputs = .writeAnswered .ok :: follows) ∧
    ((s .rdHum).phase = .write ∧ (s .rdHum).cmdOpc = 0xF5 ∧ (s .rdHum).cmdDly = 16 ∧
      (s .rdHum).cur.op.selector = .trigHumNohold ∧ (s .rdHum).inputs = .writeAnswered .ok :: follows) ∧
    (follows = [] ∨ follows = [.wake 0] ∨ follows = [.wake 0, .readAnswered (.ok ⟨1, 2, 3⟩)] ∨
      follows = [.wake 0, .readAnswered (.err .first)]) ∧
    (∀ extra, ([] : List Input).head? ≠ some (.wake extra)) ∧ ∀ answer, ([] : List Input).head? ≠ some (.readAnswered answer) :=
  ⟨⟨rfl, rfl, rfl, rfl, rfl⟩, ⟨rfl, rfl, rfl, rfl, rfl⟩, by simpa using h, by simp, by simp⟩

theorem witness_RefusedCommandEndsTheOperation :
    ∀ x ∈ [(Instr.softReset, Selector.softReset, GuardedOp.init 0x7F), (.trigTempNohold, .trigTempNohold, .rdTempC),
        (.trigHumNohold, .trigHumNohold, .rdHum)],
      let s := under .write x.2.2 [.writeAnswered (.err .first)]
      s.phase = .write ∧
        (x.1, x.2.1) ∈
          [(Instr.softReset, Selector.softReset), (.trigTempNohold, .trigTempNohold), (.trigHumNohold, .trigHumNohold)] ∧
        s.cmdOpc = (cmdRom x.2.1).opcode ∧ s.cur.op.selector = x.2.1 ∧ s.inputs = .writeAnswered (.err .first) :: [] := by decide

theorem witness_OwnPhasesFollowTheTable :
    let s (p : Phase) (op : GuardedOp) (crc : Byte) := { under p op [] with raw := ⟨0x68, 0x3A, crc⟩ }
    (s .lookup (.init 0x7F) 0).inputs.head? ≠ some .hardwareReset ∧ (s .lookup (.init 0x7F) 0).phase = .lookup ∧
    ((s .check .rdHum 0x7C).phase = .check ∧ crc8 [0x68, 0x3A] = (s .check .rdHum 0x7C).raw.crc) ∧
    ((s .check .rdHum 0x7D).phase = .check ∧ crc8 [0x68, 0x3A] ≠ (s .check .rdHum 0x7D).raw.crc) ∧
    (s .decode .rdTempC 0).phase = .decode ∧ (s .convert .rdTempF 0).phase = .convert ∧
    (s .respond .reset 0).phase = .respond := by decide

theorem witness_DelayIsNeverShort :
    (∃ t, step { under .delay .rdHum [.wake 0] with timer := 16000 } = .next t ∧ t.phase = .read) ∧
    (∃ t, step (under .write .rdHum [.writeAnswered .ok]) = .next t ∧ t.phase = .delay) ∧
    (under .delay .rdHum [.wake 0]).lock = .held .first ∧ (under .write .rdHum [.writeAnswered .ok]).lock = .held .first ∧
    (under .delay .rdHum [.wake 0]).inputs.head? ≠ some .hardwareReset ∧
    (under .write .rdHum [.writeAnswered .ok]).inputs.head? ≠ some .hardwareReset :=
  ⟨⟨_, rfl, rfl⟩, ⟨_, rfl, rfl⟩, rfl, rfl, by decide, by decide⟩

theorem witness_SilentTransportHoldsTheGuard :
    let s := under .read .rdHum [.advance 1000000]
    (∃ t, step s = .next t) ∧ s.phase = .read ∧ s.lock = .held .first ∧ (∀ a, s.inputs.head? ≠ some (.writeAnswered a)) ∧
      (∀ a, s.inputs.head? ≠ some (.readAnswered a)) ∧ s.inputs.head? ≠ some .hardwareReset :=
  ⟨⟨_, rfl⟩, rfl, rfl, fun _ => by simp [under, atDoor], fun _ => by simp [under, atDoor], by decide⟩

theorem witness_HardwareResetAbandonsTheTransaction (p : Phase) :
    (under p .rdHum [.hardwareReset]).inputs = .hardwareReset :: [] := rfl

theorem witness_ReadyIsSetOnlyByInit :
    (∃ t, step (atDoor true [.advance 1]) = .next t ∧ (atDoor true [.advance 1]).ready = true) ∧
    (let s := { under .delay (.init 0x7F) [.wake 0] with ready := false }
     s.inputs.head? ≠ some .hardwareReset ∧ s.ready = false ∧ ∃ t, step s = .next t ∧ t.ready = true) :=
  ⟨⟨_, rfl, rfl⟩, by decide, rfl, _, rfl, rfl⟩

theorem witness_AddressIsWrittenOnlyByInit :
    let s := under .lookup (.init 0x7F) []
    s.inputs.head? ≠ some .hardwareReset ∧ ∃ t, step s = .next t ∧ t.devAddr ≠ s.devAddr :=
  ⟨by decide, _, rfl, by decide⟩

theorem witness_OnlyThreeCommandBytesReachTheBus :
    (∃ t, step (under .lookup .rdHum []) = .next t ∧ t.trace = [⟨0, .writeCall 0x40 [0xF5]⟩]) ∧
    ∃ t, step (under .delay .rdHum [.wake 0]) = .next t ∧ t.trace = [⟨0, .readCall 0x40 3⟩] :=
  ⟨⟨_, rfl, rfl⟩, _, rfl, rfl⟩

theorem witness_FahrenheitLooksLikeCelsiusOnTheBus :
    ∃ t, exec .rdTempC (atDoor true (accepted [])) = .next t ∧ t.phase = .read := ⟨_, rfl, rfl⟩

theorem witness_TransportErrorsAreOpaque :
    let s := under .write .rdHum [.writeAnswered (.err .first)]
    s.inputs.head? ≠ some .hardwareReset ∧ ∃ t, step s = .next t ∧ t.errT = .first := ⟨by decide, _, rfl, rfl⟩

theorem witness_PureOperationsDisturbNothing :
    let s := under .delay .rdHum [.request .first [0x06, 0x04]]
    s.phase.waits = true ∧ s.inputs = .request .first [0x06, 0x04] :: [] ∧ decodeFrame [0x06, 0x04] = .ok (.cmdLookup 4) [] ∧
      (Instr.cmdLookup 4).isHost = true ∧ (Instr.cmdLookup 4).guarded = none := by decide

theorem witness_GuardAndTimerKeepTheirPlace :
    let s := { under .delay .reset [.wake 0] with timer := 15000 }
    guardFits s ∧ (s.phase ≠ .delay → s.timer = 0) ∧ ∃ t, step s = .next t ∧ t.phase ≠ .delay :=
  ⟨⟨by decide, rfl⟩, fun h => absurd rfl h, _, rfl, by decide⟩

/-- A block just reset, before which the outside world has something lined up, meets the invariant. -/
theorem conforms_at_rest (x : Input) (rest : List Input) : Conforms { State.reset with inputs := x :: rest } where
  guard := rfl
  handle := ⟨fun _ => ⟨fun _ h => (List.not_mem_nil h).elim, Nat.zero_le 1, fun h => absurd rfl h⟩, fun h => Bool.noConfusion h⟩
  pendWf := List.Pairwise.nil
  oneEach _ _ := rfl
  command h := absurd rfl h
  stage := rfl
  addr h := h.elim (fun h => Bool.noConfusion h) (fun h => absurd rfl h.1)
  bound h := Phase.noConfusion h

theorem witness_EveryStepKeepsConformance :
    let s := { State.reset with inputs := [.request .first [0x00, 0x40], .grant .first] }
    Conforms s ∧ ∃ t, step s = .next t ∧ t.phase = .write := ⟨conforms_at_rest _ _, _, rfl, rfl⟩

theorem witness_ConformingStatesHaveUnbrokenTraces :
    let s := { State.reset with inputs := [.advance 5] }
    Conforms s ∧ s.phase = .idle := ⟨conforms_at_rest _ _, rfl⟩

theorem witness_AdmittedOperationsStartTheirWrite :
    let s := atDoor true [.grant .first]
    let s' := atDoor false [.grant .first]
    (admissible .rdTempF s ∧ quietFor s ∧ s.inputs = .grant s.issuer :: []) ∧
    (admissible (.init 0x7F) s' ∧ quietFor s' ∧ s'.inputs = .grant s'.issuer :: []) ∧
    (∀ answer, ([] : List Input).head? ≠ some (.writeAnswered answer)) ∧ ([] : List Input).head? ≠ some .hardwareReset :=
  ⟨⟨rfl, ⟨rfl, rfl, rfl⟩, rfl⟩, ⟨⟨rfl, rfl⟩, ⟨rfl, rfl, rfl⟩, rfl⟩, by simp, by simp⟩

theorem witness_WaitingPhasesFollowTheTable :
    let s (p : Phase) (op : GuardedOp) (x : Input) := under p op [x]
    ((s .write .rdHum (.writeAnswered .ok)).phase = .write ∧
      (s .write .rdHum (.writeAnswered .ok)).cmdOpc = wireByte (s .write .rdHum (.writeAnswered .ok)).cur.op ∧
      (s .write .rdHum (.writeAnswered .ok)).inputs = .writeAnswered .ok :: [] ∧
      ∀ extra, ([] : List Input).head? ≠ some (.wake extra)) ∧
    ((s .write .reset (.writeAnswered (.err .first))).phase = .write ∧
      (s .write .reset (.writeAnswered (.err .first))).cmdOpc = wireByte .reset) ∧
    ((s .delay .rdTempC (.wake 0)).phase = .delay ∧ readsFrame (s .delay .rdTempC (.wake 0)).cur.op = true) ∧
    ((s .delay (.init 0x7F) (.wake 0)).phase = .delay ∧ readsFrame (s .delay (.init 0x7F) (.wake 0)).cur.op = false) ∧
    (s .read .rdHum (.readAnswered (.ok ⟨1, 2, 3⟩))).phase = .read ∧
    (s .read .rdHum (.readAnswered (.err .first))).inputs = .readAnswered (.err .first) :: [] ∧
    ((s .delay .rdHum (.advance 5)).phase.waits = true ∧ (s .delay .rdHum (.advance 5)).inputs = .advance 5 :: []) :=
  ⟨⟨rfl, rfl, rfl, by simp⟩, ⟨rfl, rfl⟩, ⟨rfl, rfl⟩, ⟨rfl, rfl⟩, rfl, rfl, rfl, rfl⟩

/-- P4: two requesters issue before either is admitted, and the second is admitted first. -/
theorem test_second_requester_first (h : 2 ≤ Config.nReq) :
    ((nextState (step { atDoor true [.grant ⟨1, h⟩] with pend := [(.first, .rdTempC), (⟨1, h⟩, .rdHum)] })).map fun s =>
      (s.phase, s.cur, s.lock, s.pend.get .first)) =
      some (.lookup, ⟨.rdHum, ⟨1, h⟩⟩, .held ⟨1, h⟩, some .rdTempC) := rfl

end Sys2Proof.Tests
end

section
/-! PROOFS. The state: what every step keeps (10_state.md R18 to R25, R37). First the moves a step is made of, then the observer's
answers, then the invariant, move by move. -/

namespace Sys2Proof.Safety

open Sys2Proof.Machine

/-! ## The moves a step is made of -/

/-- A guarded operation that needs a handle is refused without one (R75, R120). -/
theorem callReady_of_not_ready {s : State} (op : GuardedOp) (h : s.ready = false) : callReady op s = .refused .notReady := by
  simp [callReady, h]

/-- Where the block waits and nothing comes from outside, a step changes nothing (R175, R180). -/
theorem step_of_no_input {s : State} (hw : s.phase.waits = true) (hin : s.inputs = []) : step s = .next s := by
  simp [step, nextAct, nextInput, hw, hin]

theorem admissible_iff {op : GuardedOp} {s : State} :
    admissible op s ↔ if op.isInit then s.ready = false ∧ initOutstanding s = false else s.ready = true := by
  cases op <;> simp [admissible, GuardedOp.isInit]

/-- The moves a step is made of, but for the hardware reset, lead from `Q` to `P`: `Q` is kept up to where the sequencer takes over,
and `P` from there on. -/
structure LeadsTo (Q P : State → Prop) : Prop where
  enter : ∀ {s}, Q s → P s
  port : ∀ {s} who rest, Q s → Q (atPort who rest s)
  left : ∀ {s} rest, Q s → Q (inputsLeft rest s)
  put : ∀ {s op}, Q s → outstanding s s.issuer = false → admissible op s → Q { s with pend := s.pend.put s.issuer op }
  acquire : ∀ {s who op}, Q s → s.lock = .free → s.pend.get who = some op → Q (acquire who op s)
  pure : ∀ {s} r, Q s → Q (answerPure r s)
  time : ∀ {s} us, Q s → Q (passTime us s)
  sequencer : ∀ {s t}, P s → sequencerStep s = some t → P t

theorem LeadsTo.exec {Q P : State → Prop} (k : LeadsTo Q P) {i : Instr} {s t : State} (hs : Q s) (h : exec i s = .next t) :
    P t := by
  rcases exec_cases h with ⟨op, _, rfl, hout, hadm⟩ | ⟨_, _, r, rfl⟩ | ⟨_, _, rfl⟩
  · have hput := k.put hs hout (admissible_iff.2 hadm)
    rcases call_cases op s with hcall | ⟨hfree, rest, _, hcall⟩
    · rw [hcall]
      exact k.enter hput
    · rw [hcall]
      have hacq := k.acquire (k.left rest hput) hfree (Pending.get_put_self _ _ _)
      exact runSequencer_keeps (fun _ _ => k.sequencer) _ _ (k.enter hacq)
  · exact k.enter (k.pure r hs)
  · exact runCommand_keeps (fun _ _ => k.sequencer) _ _ (k.enter hs)

theorem LeadsTo.step {Q P : State → Prop} (k : LeadsTo Q P) {s t : State} (hs : Q s)
    (hreset : ∀ rest, s.inputs = .hardwareReset :: rest → P (resetBlock (inputsLeft rest s))) (h : step s = .next t) : P t := by
  rcases step_cases h with ⟨_, _, hseq | ⟨_, rfl⟩⟩ | ⟨_, ⟨_, rfl⟩ | ⟨who, _, rest, _, _, _, hex⟩ | ⟨who, rest, _, hadm⟩ |
    ⟨_, _, _, _, _, _, hex⟩ | ⟨_, _, _, _, hseq⟩ | ⟨_, _, _, _, hseq⟩ | ⟨us, rest, _, rfl⟩ | ⟨rest, hin, rfl⟩⟩
  · exact k.sequencer (k.enter hs) hseq
  · exact k.enter hs
  · exact k.enter hs
  · exact k.exec (k.port who rest hs) hex
  · obtain ⟨hfree, op, hget, rfl⟩ := admission_some hadm
    exact k.enter (k.acquire (k.left rest hs) hfree hget)
  · exact k.exec hs hex
  · exact k.sequencer (k.enter hs) hseq
  · exact k.sequencer (k.enter hs) hseq
  · exact k.enter (k.time us (k.left rest hs))
  · exact hreset rest hin

/-! ## The branches of the phases -/

theorem phaseDelay_of_measures {extra : Nat} {s : State} (h : s.cur.op.measures = true) :
    phaseDelay extra s = startRead (endDelay extra s) := by
  simp [phaseDelay, h]

theorem phaseDelay_of_not_measures {extra : Nat} {s : State} (h : s.cur.op.measures = false) :
    phaseDelay extra s = endWith .ok { endDelay extra s with ready := s.ready || s.cur.op.isInit } := by
  simp [phaseDelay, h]

theorem phaseCheck_of_match {s : State} (h : crc8 [s.raw.msb, s.raw.lsb] = s.raw.crc) :
    phaseCheck s = goto .decode { s with crcAcc := crc8 [s.raw.msb, s.raw.lsb] } := by
  simp [phaseCheck, validate, h]

theorem phaseCheck_of_mismatch {s : State} (h : crc8 [s.raw.msb, s.raw.lsb] ≠ s.raw.crc) :
    phaseCheck s = endWith (.checksumError ⟨s.raw.crc, crc8 [s.raw.msb, s.raw.lsb]⟩)
      { s with crcAcc := crc8 [s.raw.msb, s.raw.lsb] } := by
  simp [phaseCheck, validate, h]

/-! ## The state after reset, and READY -/

/-- Settles O40: the four values of R37 stand in `State.reset`, and an IDLE block with nothing lined up waits. -/
theorem resetState : Obligations.ResetState :=
  ⟨rfl, rfl, fun _ => rfl, rfl, step_of_no_input rfl rfl⟩

/-- The transaction of an INIT has come to its successful end and no other has begun. -/
structure InitSucceeded (s : State) : Prop where
  ready : s.ready = true
  isInit : s.cur.op.isInit = true
  status : s.status = .ok
  ended : s.phase = .respond ∨ s.phase = .idle

/-- The end of DELAY sets `READY` for an INIT, and leaves it alone for any other operation (R109). -/
theorem phaseDelay_ready (extra : Nat) (s : State) :
    (phaseDelay extra s).ready = s.ready ∨ InitSucceeded (phaseDelay extra s) := by
  cases hm : s.cur.op.measures with
  | true =>
    rw [phaseDelay_of_measures hm]
    exact .inl rfl
  | false =>
    rw [phaseDelay_of_not_measures hm]
    cases hi : s.cur.op.isInit with
    | false => exact .inl (by simp [endWith])
    | true => exact .inr ⟨by simp [endWith], hi, rfl, .inl rfl⟩

theorem phaseCheck_ready (s : State) : (phaseCheck s).ready = s.ready := by
  by_cases hc : crc8 [s.raw.msb, s.raw.lsb] = s.raw.crc
  · rw [phaseCheck_of_match hc]
    rfl
  · rw [phaseCheck_of_mismatch hc]
    rfl

/-- The sequencer changes `READY` only where an INIT comes to its successful end. -/
theorem sequencerStep_ready {s t : State} (h : sequencerStep s = some t) : t.ready = s.ready ∨ InitSucceeded t := by
  rcases sequencerStep_cases h with ⟨_, rfl⟩ | ⟨_, a, rest, _, rfl⟩ | ⟨_, extra, rest, _, rfl⟩ | ⟨_, a, rest, _, rfl⟩ | ⟨_, rfl⟩ |
    ⟨_, rfl⟩ | ⟨_, rfl⟩ | ⟨_, rfl⟩
  · exact .inl rfl
  · cases a <;> exact .inl rfl
  · exact phaseDelay_ready extra (inputsLeft rest s)
  · cases a <;> exact .inl rfl
  · exact .inl (phaseCheck_ready s)
  · exact .inl rfl
  · exact .inl rfl
  · exact .inl rfl

/-- After the end of an INIT the sequencer only returns from it. -/
theorem InitSucceeded.sequencerStep {s t : State} (hs : InitSucceeded s) (h : sequencerStep s = some t) : InitSucceeded t := by
  have ht : t = respond s := by
    rcases hs.ended with hp | hp
    · simpa [hp] using sequencerStep_cases h
    · simp [sequencerStep_idle hp] at h
  subst ht
  exact ⟨hs.ready, hs.isInit, hs.status, .inr rfl⟩

/-- Up to the sequencer a step leaves `READY` alone, and the sequencer sets it by an INIT or not at all. -/
theorem leadsTo_ready (b : Bool) : LeadsTo (fun s => s.ready = b) (fun s => s.ready = b ∨ InitSucceeded s) where
  enter h := .inl h
  port _ _ h := h
  left _ h := h
  put h _ _ := h
  acquire h _ _ := h
  pure _ h := h
  time _ h := h
  sequencer hs h := by
    rcases hs with hs | hs
    · rcases sequencerStep_ready h with ht | ht
      · exact .inl (ht.trans hs)
      · exact .inr ht
    · exact .inr (hs.sequencerStep h)

/-- Settles O41: READY is as before the step, or an INIT has just succeeded; without it the four operations are refused. -/
theorem readyIsSetOnlyByInit : Obligations.ReadyIsSetOnlyByInit := by
  refine ⟨fun s t h hno => ?_, fun s hs i hi => ?_⟩
  · have hkept : t.ready = s.ready ∨ InitSucceeded t :=
      (leadsTo_ready s.ready).step rfl (fun rest hin => absurd (by rw [hin]; rfl) hno) h
    rcases hkept with hkept | hinit
    · exact ⟨hkept.trans, fun hs ht => by simp [hkept, hs] at ht⟩
    · exact ⟨fun _ => hinit.ready, fun _ _ => ⟨hinit.isInit, hinit.status⟩⟩
  · have hrefused := fun op => callReady_of_not_ready op hs
    fin_cases hi
    · exact hrefused .reset
    · exact hrefused .rdTempC
    · exact hrefused .rdTempF
    · exact hrefused .rdHum

/-! ## What the observer makes of each event -/

@[simp] theorem watch_cons (o : Observed) (trace : List Observed) : watch (o :: trace) = watchNext o (watch trace) := rfl

section
variable {w : Watch} {r : Request} {a : DevAddr} {n t : Nat} {e : TErr} {f : Sample} {x : Response} {who : Requester}

theorem watchNext_admitted (hw : w.stage = .quiet) : watchNext ⟨n, .admitted r⟩ w = ⟨boundAddr r.op w.addr, .admitted r⟩ := by
  simp [watchNext, hw]

theorem watchNext_writeCall (hw : w.stage = .admitted r) (ha : w.addr = some a) :
    watchNext ⟨n, .writeCall (busAddr a) [wireByte r.op]⟩ w = ⟨w.addr, .writeOut r⟩ := by
  simp [watchNext, hw, ha]

theorem watchNext_writeAnswer_ok (hw : w.stage = .writeOut r) : watchNext ⟨n, .writeAnswer .ok⟩ w = ⟨w.addr, .settling r n⟩ := by
  simp [watchNext, hw]

theorem watchNext_writeAnswer_err (hw : w.stage = .writeOut r) :
    watchNext ⟨n, .writeAnswer (.err e)⟩ w = ⟨w.addr, .due r (.transport e)⟩ := by
  simp [watchNext, hw]

theorem watchNext_readCall (hw : w.stage = .settling r t) (ha : w.addr = some a) (hr : readsFrame r.op = true)
    (ht : t + leastDelayMs r.op * 1000 ≤ n) : watchNext ⟨n, .readCall (busAddr a) 3⟩ w = ⟨w.addr, .readOut r⟩ := by
  simp [watchNext, hw, ha, hr, ht]

theorem watchNext_readAnswer_ok (hw : w.stage = .readOut r) :
    watchNext ⟨n, .readAnswer (.ok f)⟩ w = ⟨w.addr, .due r (responseFor r.op f)⟩ := by
  simp [watchNext, hw]

theorem watchNext_readAnswer_err (hw : w.stage = .readOut r) :
    watchNext ⟨n, .readAnswer (.err e)⟩ w = ⟨w.addr, .due r (.transport e)⟩ := by
  simp [watchNext, hw]

theorem watchNext_response_due (hw : w.stage = .due r x) : watchNext ⟨n, .response r.who x⟩ w = ⟨w.addr, .quiet⟩ := by
  simp [watchNext, hw]

theorem watchNext_response_settling (hw : w.stage = .settling r t) (hr : readsFrame r.op = false)
    (ht : t + leastDelayMs r.op * 1000 ≤ n) : watchNext ⟨n, .response r.who .ok⟩ w = ⟨w.addr, .quiet⟩ := by
  simp [watchNext, hw, hr, ht]

/-- The observer passes over a pure response (R121). -/
@[simp] theorem watchNext_pureResponse : watchNext ⟨n, .pureResponse who x⟩ w = w := by
  cases hw : w.stage <;> simp [watchNext, hw]

theorem watchNext_hardwareReset (hw : w.stage ≠ .broken) : watchNext ⟨n, .hardwareReset⟩ w = ⟨none, .quiet⟩ := by
  cases hs : w.stage <;> simp_all [watchNext]

end

/-- No phase of the block fits an observer who has refused something. -/
theorem stageFits_not_broken {s : State} {g : Stage} (h : stageFits s g) : g ≠ .broken := by
  rintro rfl
  cases hp : s.phase <;> simp [stageFits, hp] at h

/-! ## The block's tables against the observer's -/

theorem readsFrame_eq_measures (op : GuardedOp) : readsFrame op = op.measures := by cases op <;> rfl

theorem cmdRom_opcode_eq_wireByte (op : GuardedOp) : (cmdRom op.selector).opcode = wireByte op := by cases op <;> rfl

theorem cmdRom_delayMs_eq_leastDelayMs (op : GuardedOp) : (cmdRom op.selector).delayMs.toNat = leastDelayMs op := by
  cases op <;> rfl

/-- For an operation that measures, CONVERT makes the value the observer expects (R111 to R113). -/
theorem conversion_eq_valueOf {op : GuardedOp} (h : readsFrame op = true) (f : Sample) (old : Pattern32) :
    conversion op (decode16 f.msb f.lsb) old = valueOf op f := by
  cases op <;> simp_all [readsFrame, conversion, valueOf]

/-! ## What conforming says outside IDLE -/

section
variable {s : State}

theorem Conforms.idle_of_free (h : Conforms s) (hl : s.lock = .free) : s.phase = .idle := by
  simpa [guardFits, hl] using h.guard

theorem Conforms.held (h : Conforms s) (hp : s.phase ≠ .idle) : s.lock = .held s.cur.who := by
  have hg := h.guard
  cases hl : s.lock with
  | free => exact absurd (h.idle_of_free hl) hp
  | held who =>
    obtain ⟨_, hwho⟩ : s.phase ≠ .idle ∧ s.cur.who = who := by simpa only [guardFits, hl] using hg
    rw [hwho]

theorem Conforms.opcode (h : Conforms s) (hi : s.phase ≠ .idle) (hl : s.phase ≠ .lookup) :
    s.cmdOpc = (cmdRom s.cur.op.selector).opcode := congrArg Command.opcode (h.command hi hl)

theorem Conforms.delayMs (h : Conforms s) (hi : s.phase ≠ .idle) (hl : s.phase ≠ .lookup) :
    s.cmdDly = (cmdRom s.cur.op.selector).delayMs := congrArg Command.delayMs (h.command hi hl)

/-- A transaction under way without a handle is an INIT, so any other has one. -/
theorem Conforms.ready_of_not_init (h : Conforms s) (hp : s.phase ≠ .idle) (hop : s.cur.op.isInit = false) : s.ready = true := by
  by_contra hr
  obtain ⟨_, _, hrun⟩ := h.handle.noHandle (by simpa using hr)
  obtain ⟨_, hinit⟩ := hrun hp
  simp [hop] at hinit

/-- Nothing of what conforms looks at the requester at the port or at what the outside world does next. -/
theorem Conforms.setPort (h : Conforms s) (who : Requester) (rest : List Input) :
    Conforms { s with issuer := who, inputs := rest } :=
  ⟨h.guard, ⟨h.handle.noHandle, h.handle.handle⟩, h.pendWf, h.oneEach, h.command, h.stage, h.addr, h.bound⟩

end

/-! ## The phases between LOOKUP and the return -/

/-- `t` stands further on in the transaction of `s`: past LOOKUP, not yet returned from, with the registers of the transaction as they
were. `READY` may have become set if the transaction is at its end. -/
structure Onward (s t : State) : Prop where
  running : s.phase ≠ .idle ∧ s.phase ≠ .lookup ∧ s.phase ≠ .respond
  goesOn : t.phase ≠ .idle ∧ t.phase ≠ .lookup := by exact ⟨nofun, nofun⟩
  lock : t.lock = s.lock := by rfl
  pend : t.pend = s.pend := by rfl
  cur : t.cur = s.cur := by rfl
  cmdOpc : t.cmdOpc = s.cmdOpc := by rfl
  cmdDly : t.cmdDly = s.cmdDly := by rfl
  devAddr : t.devAddr = s.devAddr := by rfl
  ready : t.ready = s.ready ∨ (t.ready = true ∧ t.phase = .respond) := by exact .inl rfl

/-- Without a handle nothing is pending while the INIT runs, so the handle it makes finds no INIT waiting. -/
theorem Onward.handleFits {s t : State} (o : Onward s t) (h : handleFits s) : handleFits t where
  noHandle hr := by
    have hs : s.ready = false := by
      rcases o.ready with e | ⟨e, _⟩
      · rw [← e, hr]
      · simp [hr] at e
    rw [o.pend, o.cur]
    obtain ⟨hinit, hone, hrun⟩ := h.noHandle hs
    exact ⟨hinit, hone, fun _ => hrun o.running.1⟩
  handle hr := by
    cases hs : s.ready with
    | true =>
      obtain ⟨hpend, hrun⟩ := h.handle hs
      rw [o.pend]
      refine ⟨hpend, fun ⟨_, _, hinit⟩ => hrun ⟨o.running.1, o.running.2.2, ?_⟩⟩
      rw [← o.cur, hinit]
    | false =>
      obtain ⟨-, hend⟩ := o.ready.resolve_left (by simp [hr, hs])
      obtain ⟨_, _, hrun⟩ := h.noHandle hs
      obtain ⟨hpend, _⟩ := hrun o.running.1
      rw [o.pend, hpend]
      exact ⟨by simp, fun hin => hin.2.1 hend⟩

/-- Further on in a transaction only the observer's stage is left to be shown. -/
theorem Onward.conforms {s t : State} {g : Stage} (o : Onward s t) (h : Conforms s)
    (hw : watch t.trace = ⟨(watch s.trace).addr, g⟩) (hg : stageFits t g) : Conforms t where
  guard := by
    rw [guardFits, o.lock, h.held o.running.1, o.cur]
    exact ⟨o.goesOn.1, rfl⟩
  handle := o.handleFits h.handle
  pendWf := o.pend ▸ h.pendWf
  oneEach who := by
    rw [o.lock, o.pend]
    exact h.oneEach who
  command _ _ := by
    rw [o.cmdOpc, o.cmdDly, o.cur]
    exact h.command o.running.1 o.running.2.1
  stage := hw ▸ hg
  addr _ := by
    rw [hw, o.devAddr]
    exact h.addr (.inr ⟨o.running.1, o.running.2.1⟩)
  bound hp := absurd hp o.goesOn.2

section
variable {s : State}

theorem Conforms.phaseWrite (h : Conforms s) (hp : s.phase = .write) (a : WriteAnswer) : Conforms (phaseWrite a s) := by
  have hg : (watch s.trace).stage = .writeOut s.cur := by simpa [stageFits, hp] using h.stage
  have hrun : s.phase ≠ .idle ∧ s.phase ≠ .lookup ∧ s.phase ≠ .respond := by simp [hp]
  cases a with
  | ok =>
    have o : Onward s (startDelay (emit (.writeAnswer .ok) s)) := { running := hrun }
    refine o.conforms h (watchNext_writeAnswer_ok hg) ⟨s.now, rfl, ?_⟩
    have hd : s.cmdDly.toNat = leastDelayMs s.cur.op := by
      rw [h.delayMs hrun.1 hrun.2.1, cmdRom_delayMs_eq_leastDelayMs]
    change s.now + leastDelayMs s.cur.op * 1000 ≤ s.now + s.cmdDly.toNat * 1000
    rw [hd]
  | err e =>
    have o : Onward s (endWith (.transportError e) (emit (.writeAnswer (.err e)) s)) := { running := hrun }
    exact o.conforms h (watchNext_writeAnswer_err hg) (.inl rfl)

theorem Conforms.phaseDelay (h : Conforms s) (hp : s.phase = .delay) (extra : Nat) : Conforms (phaseDelay extra s) := by
  obtain ⟨since, hg, hlate⟩ : ∃ since, (watch s.trace).stage = .settling s.cur since ∧
      since + leastDelayMs s.cur.op * 1000 ≤ s.now + s.timer := by simpa [stageFits, hp] using h.stage
  have hrun : s.phase ≠ .idle ∧ s.phase ≠ .lookup ∧ s.phase ≠ .respond := by simp [hp]
  have hnow : since + leastDelayMs s.cur.op * 1000 ≤ s.now + (s.timer + extra) := by omega
  cases hm : s.cur.op.measures with
  | true =>
    rw [phaseDelay_of_measures hm]
    have hreads : readsFrame s.cur.op = true := (readsFrame_eq_measures _).trans hm
    have o : Onward s (startRead (endDelay extra s)) := { running := hrun }
    exact o.conforms h (watchNext_readCall hg (h.addr (.inr ⟨hrun.1, hrun.2.1⟩)) hreads hnow) ⟨rfl, hreads⟩
  | false =>
    rw [phaseDelay_of_not_measures hm]
    have hready : (s.ready || s.cur.op.isInit) = true := by
      cases hi : s.cur.op.isInit with
      | true => simp
      | false => simp [h.ready_of_not_init hrun.1 hi]
    have o : Onward s (endWith .ok { endDelay extra s with ready := s.ready || s.cur.op.isInit }) :=
      { running := hrun, ready := .inr ⟨hready, rfl⟩ }
    refine o.conforms h rfl (.inr ⟨since, hg, hnow, (readsFrame_eq_measures _).trans hm, ?_⟩)
    simp [responseOf, endWith, recordEnding, hm]

theorem Conforms.phaseRead (h : Conforms s) (hp : s.phase = .read) (a : ReadAnswer) : Conforms (phaseRead a s) := by
  obtain ⟨hg, hreads⟩ : (watch s.trace).stage = .readOut s.cur ∧ readsFrame s.cur.op = true := by
    simpa [stageFits, hp] using h.stage
  have hrun : s.phase ≠ .idle ∧ s.phase ≠ .lookup ∧ s.phase ≠ .respond := by simp [hp]
  cases a with
  | ok f =>
    have o : Onward s (goto .check { emit (.readAnswer (.ok f)) s with raw := f }) := { running := hrun }
    exact o.conforms h (watchNext_readAnswer_ok hg) ⟨rfl, hreads⟩
  | err e =>
    have o : Onward s (endWith (.transportError e) (freeSample (emit (.readAnswer (.err e)) s))) :=
      { running := hrun }
    exact o.conforms h (watchNext_readAnswer_err hg) (.inl rfl)

theorem Conforms.phaseCheck (h : Conforms s) (hp : s.phase = .check) : Conforms (phaseCheck s) := by
  obtain ⟨hg, hreads⟩ : (watch s.trace).stage = .due s.cur (responseFor s.cur.op s.raw) ∧ readsFrame s.cur.op = true := by
    simpa [stageFits, hp] using h.stage
  have hrun : s.phase ≠ .idle ∧ s.phase ≠ .lookup ∧ s.phase ≠ .respond := by simp [hp]
  by_cases hc : crc8 [s.raw.msb, s.raw.lsb] = s.raw.crc
  · rw [phaseCheck_of_match hc]
    have o : Onward s (goto .decode { s with crcAcc := crc8 [s.raw.msb, s.raw.lsb] }) := { running := hrun }
    exact o.conforms h rfl ⟨hg, hreads, hc⟩
  · rw [phaseCheck_of_mismatch hc]
    have o : Onward s (endWith (.checksumError ⟨s.raw.crc, crc8 [s.raw.msb, s.raw.lsb]⟩)
        { s with crcAcc := crc8 [s.raw.msb, s.raw.lsb] }) := { running := hrun }
    refine o.conforms h rfl (.inl (hg.trans ?_))
    rw [responseFor, if_neg hc]
    rfl

theorem Conforms.phaseDecode (h : Conforms s) (hp : s.phase = .decode) : Conforms (phaseDecode s) := by
  obtain ⟨hg, hreads, hc⟩ : (watch s.trace).stage = .due s.cur (responseFor s.cur.op s.raw) ∧ readsFrame s.cur.op = true ∧
      crc8 [s.raw.msb, s.raw.lsb] = s.raw.crc := by simpa [stageFits, hp] using h.stage
  have o : Onward s (Machine.phaseDecode s) := { running := by simp [hp] }
  exact o.conforms h rfl ⟨hg, hreads, hc, rfl⟩

theorem Conforms.phaseConvert (h : Conforms s) (hp : s.phase = .convert) : Conforms (phaseConvert s) := by
  obtain ⟨hg, hreads, hc, hd⟩ : (watch s.trace).stage = .due s.cur (responseFor s.cur.op s.raw) ∧ readsFrame s.cur.op = true ∧
      crc8 [s.raw.msb, s.raw.lsb] = s.raw.crc ∧ s.d = decode16 s.raw.msb s.raw.lsb := by simpa [stageFits, hp] using h.stage
  have o : Onward s (Machine.phaseConvert s) := { running := by simp [hp] }
  have hx : responseOf (Machine.phaseConvert s) = responseFor s.cur.op s.raw := by
    have hm : s.cur.op.measures = true := (readsFrame_eq_measures _).symm.trans hreads
    rw [responseFor, if_pos hc]
    simp [responseOf, Machine.phaseConvert, endWith, recordEnding, hm, hd, conversion_eq_valueOf hreads]
  exact o.conforms h rfl (.inl (hx ▸ hg))

/-! ## LOOKUP and the return -/

/-- The address the write call of LOOKUP goes to is the one the observer has bound: an INIT's own, or the handle's. -/
theorem Conforms.addr_of_lookup (h : Conforms s) (hp : s.phase = .lookup) :
    (watch s.trace).addr = some (Machine.phaseLookup s).devAddr := by
  have hold (hi : s.cur.op.isInit = false) := h.addr (.inl (h.ready_of_not_init (by simp [hp]) hi))
  have hnew := h.bound hp
  cases hop : s.cur.op with
  | init a => simpa [Machine.phaseLookup, startWrite, hop] using hnew a hop
  | reset | rdTempC | rdTempF | rdHum => simpa [Machine.phaseLookup, startWrite, hop] using hold (by rw [hop]; rfl)

theorem Conforms.phaseLookup (h : Conforms s) (hp : s.phase = .lookup) : Conforms (phaseLookup s) := by
  have hrun : s.phase ≠ .idle := by simp [hp]
  have hg : (watch s.trace).stage = .admitted s.cur := by simpa [stageFits, hp] using h.stage
  have hw : watch (Machine.phaseLookup s).trace = ⟨(watch s.trace).addr, .writeOut s.cur⟩ := by
    have hcall := watchNext_writeCall (n := s.now) hg (h.addr_of_lookup hp)
    rw [← cmdRom_opcode_eq_wireByte] at hcall
    exact hcall
  exact {
    guard := by
      change guardFits { s with phase := .write }
      simp [guardFits, h.held hrun]
    handle := {
      noHandle := fun hr => by
        obtain ⟨hinit, hone, hidle⟩ := h.handle.noHandle hr
        exact ⟨hinit, hone, fun _ => hidle hrun⟩
      handle := fun hr => by
        obtain ⟨hpend, hnot⟩ := h.handle.handle hr
        exact ⟨hpend, fun ⟨_, _, hinit⟩ => hnot ⟨hrun, by simp [hp], hinit⟩⟩ }
    pendWf := h.pendWf
    oneEach := h.oneEach
    command := fun _ _ => rfl
    stage := by
      rw [hw]
      rfl
    addr := fun _ => by
      rw [hw]
      exact h.addr_of_lookup hp
    bound := nofun }

/-- The response that RESPOND gives is the one the observer waits for, and he is quiet after it. -/
theorem Conforms.watch_respond (h : Conforms s) (hp : s.phase = .respond) :
    watch (Machine.respond s).trace = ⟨(watch s.trace).addr, .quiet⟩ := by
  have hg : (watch s.trace).stage = .due s.cur (responseOf s) ∨ ∃ t, (watch s.trace).stage = .settling s.cur t ∧
      t + leastDelayMs s.cur.op * 1000 ≤ s.now ∧ readsFrame s.cur.op = false ∧ responseOf s = .ok := by
    simpa [stageFits, hp] using h.stage
  change watchNext ⟨s.now, .response s.cur.who (responseOf s)⟩ (watch s.trace) = _
  rcases hg with hg | ⟨t, hg, hlate, hreads, hok⟩
  · exact watchNext_response_due hg
  · rw [hok]
    exact watchNext_response_settling hg hreads hlate

theorem Conforms.respond (h : Conforms s) (hp : s.phase = .respond) : Conforms (respond s) where
  guard := rfl
  handle := {
    noHandle := fun hr => by
      obtain ⟨hinit, hone, _⟩ := h.handle.noHandle hr
      exact ⟨hinit, hone, fun hidle => absurd rfl hidle⟩
    handle := fun hr => ⟨(h.handle.handle hr).1, fun hin => hin.1 rfl⟩ }
  pendWf := h.pendWf
  oneEach _ := nofun
  command hidle := absurd rfl hidle
  stage := by
    rw [h.watch_respond hp]
    rfl
  addr hr := by
    rw [h.watch_respond hp]
    exact h.addr (hr.imp_right fun hrun => absurd rfl hrun.1)
  bound := nofun

end

theorem Conforms.sequencerStep {s t : State} (h : Conforms s) (hstep : sequencerStep s = some t) : Conforms t := by
  rcases sequencerStep_cases hstep with ⟨hp, rfl⟩ | ⟨hp, a, rest, _, rfl⟩ | ⟨hp, extra, rest, _, rfl⟩ | ⟨hp, a, rest, _, rfl⟩ |
    ⟨hp, rfl⟩ | ⟨hp, rfl⟩ | ⟨hp, rfl⟩ | ⟨hp, rfl⟩
  · exact h.phaseLookup hp
  · exact (h.setPort s.issuer rest).phaseWrite hp a
  · exact (h.setPort s.issuer rest).phaseDelay hp extra
  · exact (h.setPort s.issuer rest).phaseRead hp a
  · exact h.phaseCheck hp
  · exact h.phaseDecode hp
  · exact h.phaseConvert hp
  · exact h.respond hp

/-! ## The moves of the requesters, the guard and the environment -/

section
variable {s : State}

theorem Conforms.pend_nil_and_idle_of_no_init (h : Conforms s) (hr : s.ready = false) (hno : initOutstanding s = false) :
    s.pend = [] ∧ s.phase = .idle := by
  obtain ⟨hinit, _, hrun⟩ := h.handle.noHandle hr
  simp only [initOutstanding, Bool.or_eq_false_iff, List.any_eq_false] at hno
  obtain ⟨hnone, hcur⟩ := hno
  refine ⟨List.eq_nil_iff_forall_not_mem.2 fun x hx => hnone x hx (hinit x hx), ?_⟩
  by_contra hp
  simp [h.held hp, (hrun hp).2] at hcur

theorem Conforms.put (h : Conforms s) {op : GuardedOp} (hout : outstanding s s.issuer = false) (hadm : admissible op s) :
    Conforms { s with pend := s.pend.put s.issuer op } where
  guard := h.guard
  handle := by
    rw [admissible_iff] at hadm
    refine ⟨fun hr => ?_, fun hr => ?_⟩
    · have hr : s.ready = false := hr
      cases hi : op.isInit with
      | false => simp [hi, hr] at hadm
      | true =>
        obtain ⟨hnil, hidle⟩ := h.pend_nil_and_idle_of_no_init hr (by simpa [hi, hr] using hadm)
        simp [hnil, hidle, Pending.put, hi]
    · have hr : s.ready = true := hr
      obtain ⟨hpend, hrun⟩ := h.handle.handle hr
      have hi : op.isInit = false := by
        by_contra hi
        simp [hi, hr] at hadm
      refine ⟨fun x hx => ?_, hrun⟩
      rcases Pending.mem_put hx with rfl | hx
      · exact hi
      · exact hpend x hx
  pendWf := Pending.wf_put _ _ _ h.pendWf
  oneEach who hl := by
    have hl : s.lock = .held who := hl
    have hne : who ≠ s.issuer := by
      rintro rfl
      simp [outstanding, hl] at hout
    exact (Pending.get_put_other _ _ _ _ hne).trans (h.oneEach who hl)
  command := h.command
  stage := h.stage
  addr := h.addr
  bound := h.bound

theorem Conforms.acquire (h : Conforms s) {who : Requester} {op : GuardedOp} (hl : s.lock = .free)
    (hget : s.pend.get who = some op) : Conforms (acquire who op s) := by
  have hmem := Pending.mem_of_get hget
  have hg : (watch s.trace).stage = .quiet := by simpa [stageFits, h.idle_of_free hl] using h.stage
  have hw : watch (Machine.acquire who op s).trace = ⟨boundAddr op (watch s.trace).addr, .admitted ⟨op, who⟩⟩ :=
    watchNext_admitted hg
  exact {
    guard := ⟨nofun, rfl⟩
    handle := {
      noHandle := fun hr => by
        obtain ⟨hinit, hone, _⟩ := h.handle.noHandle hr
        obtain ⟨x, hx⟩ := List.length_eq_one_iff.1 (le_antisymm hone (List.length_pos_of_mem hmem))
        have hdrop : s.pend.drop who = [] := by
          rw [hx, List.mem_singleton] at hmem
          rw [hx, ← hmem]
          simp [Pending.drop_cons]
        change (∀ x ∈ s.pend.drop who, x.2.isInit = true) ∧ (s.pend.drop who).length ≤ 1 ∧
          (_ → s.pend.drop who = [] ∧ op.isInit = true)
        simp [hdrop, hinit _ hmem]
      handle := fun hr => by
        obtain ⟨hpend, _⟩ := h.handle.handle hr
        refine ⟨fun x hx => hpend x (List.mem_of_mem_filter hx), fun ⟨_, _, hinit⟩ => ?_⟩
        exact Bool.false_ne_true ((hpend _ hmem).symm.trans hinit) }
    pendWf := Pending.wf_drop _ _ h.pendWf
    oneEach := fun other hheld => by
      cases hheld
      exact Pending.get_drop_self _ _
    command := fun _ hne => absurd rfl hne
    stage := by
      rw [hw]
      rfl
    addr := fun hr => by
      have hr : s.ready = true := hr.resolve_right fun hne => hne.2 rfl
      rw [hw]
      have hold := h.addr (.inl hr)
      have hop := (h.handle.handle hr).1 _ hmem
      cases op with
      | init a => simp [GuardedOp.isInit] at hop
      | reset | rdTempC | rdTempF | rdHum => exact hold
    bound := fun _ a ha => by
      have ha : op = .init a := ha
      rw [hw, ha]
      rfl }

theorem Conforms.answerPure (h : Conforms s) (r : Response) : Conforms (answerPure r s) := by
  have hw : watch (Machine.answerPure r s).trace = watch s.trace := watchNext_pureResponse
  exact ⟨h.guard, ⟨h.handle.noHandle, h.handle.handle⟩, h.pendWf, h.oneEach, h.command, hw ▸ h.stage, hw ▸ h.addr, hw ▸ h.bound⟩

/-- While time passes, the time at which the delay may end comes no nearer than the timer says (R174). -/
theorem stageFits_passTime {g : Stage} (us : Nat) (h : stageFits s g) : stageFits (passTime us s) g := by
  cases hp : s.phase with
  | delay =>
    simp only [stageFits, hp, passTime_phase, passTime_cur, passTime_now, passTime_timer] at h ⊢
    obtain ⟨t, hg, hlate⟩ := h
    exact ⟨t, hg, by omega⟩
  | respond =>
    simp only [stageFits, hp, passTime_phase, passTime_cur, passTime_now] at h ⊢
    refine h.imp_right fun ⟨t, hg, hlate, hrest⟩ => ⟨t, hg, by omega, hrest⟩
  | idle | lookup | write | read | check | decode | convert => simpa [stageFits, hp] using h

theorem Conforms.passTime (h : Conforms s) (us : Nat) : Conforms (passTime us s) :=
  ⟨h.guard, ⟨h.handle.noHandle, h.handle.handle⟩, h.pendWf, h.oneEach, h.command, stageFits_passTime us h.stage, h.addr, h.bound⟩

theorem Conforms.resetBlock (h : Conforms s) : Conforms (resetBlock s) where
  guard := rfl
  handle := ⟨fun _ => ⟨nofun, Nat.zero_le 1, fun hne => absurd rfl hne⟩, nofun⟩
  pendWf := List.Pairwise.nil
  oneEach _ _ := rfl
  command hne := absurd rfl hne
  stage := congrArg Watch.stage (watchNext_hardwareReset (stageFits_not_broken h.stage))
  addr hr := hr.elim nofun fun hne => absurd rfl hne.1
  bound := nofun

end

theorem leadsTo_conforms : LeadsTo Conforms Conforms where
  enter h := h
  port who rest h := h.setPort who rest
  left rest h := h.setPort _ rest
  put h hout hadm := h.put hout hadm
  acquire h hl hget := h.acquire hl hget
  pure r h := h.answerPure r
  time us h := h.passTime us
  sequencer h hstep := h.sequencerStep hstep

/-- Settles O49: each move a step is made of keeps the invariant. -/
theorem everyStepKeepsConformance : Obligations.EveryStepKeepsConformance := fun _ _ hs h =>
  leadsTo_conforms.step hs (fun rest _ => (hs.setPort _ rest).resetBlock) h

end Sys2Proof.Safety
end

section
/-! PROOFS. Requests that mean nothing and requests that are not admissible (30_encoding.md R73 to R75): first the decoder's refusals,
then the step that takes such a frame, then the tests of INIT. -/

namespace Sys2Proof

/-! ## What the decoder refuses and accepts -/

/-- Operation codes 0x07 to 0xFF are reserved (R73). -/
theorem decodeRequest_reserved {op : Byte} (tail : List Byte) (h : 7 ≤ op.toNat) :
    decodeRequest (op :: tail) = .bad (.reservedOperation op) := by
  simp only [decodeRequest]
  split
  case h_8 => rfl
  all_goals omega

theorem decodeFrame_of_decodeRequest_bad {frame : List Byte} {e : DecodeError} (h : decodeRequest frame = .bad e) :
    decodeFrame frame = .bad e := by
  simp [decodeFrame, h]

theorem decodeFrame_of_decodeRequest_ok {frame : List Byte} {i : Instr} (h : decodeRequest frame = .ok i []) :
    decodeFrame frame = .ok i [] := by
  simp [decodeFrame, h]

end Sys2Proof

namespace Sys2Proof.Safety

open Sys2Proof.Machine

/-- A block that waits refuses a frame that is no request, under the decoder's reason. -/
theorem step_of_bad_request {s : State} {who : Requester} {frame : List Byte} {rest : List Input} {e : DecodeError}
    (hw : s.phase.waits = true) (hin : s.inputs = .request who frame :: rest) (hbad : decodeRequest frame = .bad e) :
    step s = .refused (.badRequest e) := by
  simp [step, nextAct, nextInput, hw, hin, decodeFrame_of_decodeRequest_bad hbad]

/-- Settles O5: the decoder refuses the three kinds of frame, each under its own reason, and takes a CRC_VALIDATE frame whole. -/
theorem meaninglessRequestsAreRefused : Obligations.MeaninglessRequestsAreRefused := by
  refine ⟨fun s who op operand tail rest hw => ⟨fun hin hop => ?_, fun hin haddr => ?_, fun hin hsel => ?_⟩,
    fun len data expected hlen => ?_⟩
  · exact step_of_bad_request hw hin (decodeRequest_reserved tail hop)
  · exact step_of_bad_request hw hin ((decodeRequest_init operand tail).trans (if_pos haddr))
  · have hnot : ¬ operand.toNat ≤ 4 := by omega
    exact step_of_bad_request hw hin ((decodeRequest_cmdLookup operand tail).trans (if_neg hnot))
  · exact decodeFrame_of_decodeRequest_ok (decodeRequest_crcValidate len data [] expected hlen)

/-! ## Requests that are not admissible -/

/-- INIT is refused while the block has a handle (R75, R120). -/
theorem execInit_of_ready {s : State} {addr : Byte} (haddr : addr.msb = false) (h : s.ready = true) :
    execInit addr s = .refused .handleExists := by
  simp [execInit, haddr, h]

/-- INIT is refused while another INIT is pending or in progress (R120). -/
theorem execInit_of_initOutstanding {s : State} {addr : Byte} (haddr : addr.msb = false) (h : s.ready = false)
    (hout : initOutstanding s = true) : execInit addr s = .refused .initOutstanding := by
  simp [execInit, haddr, h, hout]

/-- Settles O28: without a handle by the second part of O41, and INIT by its two tests. -/
theorem inadmissibleRequestsAreRefused : Obligations.InadmissibleRequestsAreRefused := fun s =>
  ⟨readyIsSetOnlyByInit.2 s, fun h _ haddr => execInit_of_ready haddr h,
    fun h hout _ haddr => execInit_of_initOutstanding haddr h hout⟩

end Sys2Proof.Safety
end

section
/-! PROOFS. The CRC unit (40_crc8.md R82 to R88). The loop that generates the table is a linear bijection turn by turn, so the table
is one too; the checksum's corner cases follow by its recursion, and CRC_VALIDATE answers with the validator's verdict. -/

namespace Sys2Proof.Machine

/-! ## The table and the loop that generates it -/

/-- A turn loses nothing: the polynomial is odd, so bit 0 of the result tells what bit 7 was (R82). -/
theorem crcShift_eq_zero {c : Byte} (h : crcShift c = 0) : c = 0 := by
  unfold crcShift at h
  cases hmsb : c.msb with
  | true =>
    have hbit := congrArg (·.getLsbD 0) h
    simp [hmsb] at hbit
  | false =>
    have hlt := BitVec.msb_eq_false_iff_two_mul_lt.1 hmsb
    simp only [hmsb, Bool.false_eq_true, if_false] at h
    bv_omega

theorem crcShift_injective : Function.Injective crcShift := fun a b h =>
  BitVec.xor_eq_zero_iff.1 (crcShift_eq_zero ((crcShift_xor a b).trans (BitVec.xor_eq_zero_iff.2 h)))

theorem crcLoop_eq_iterate : crcLoop = crcShift^[8] := rfl

theorem crcLoop_injective : Function.Injective crcLoop := crcLoop_eq_iterate ▸ crcShift_injective.iterate 8

theorem crcLoop_xor (a b : Byte) : crcLoop (a ^^^ b) = crcLoop a ^^^ crcLoop b := by
  have turn : Function.Semiconj₂ crcShift (· ^^^ ·) (· ^^^ ·) := crcShift_xor
  exact turn.iterate 8 a b

/-- The 256 listed entries, against the loop (R83). -/
theorem crcTable_eq_generated : crcTable = List.ofFn fun n : Fin 256 => crcLoop (BitVec.ofFin n) := by decide +kernel

theorem crcRom_eq_crcLoop (i : Byte) : crcRom i = crcLoop i := by
  rw [crcRom, crcTable_eq_generated, List.getD_eq_getElem _ _ (i.isLt.trans_eq List.length_ofFn.symm), List.getElem_ofFn]
  rfl

theorem crcRom_xor (a b : Byte) : crcRom (a ^^^ b) = crcRom a ^^^ crcRom b := by
  simp only [crcRom_eq_crcLoop, crcLoop_xor]

/-- The table is a permutation of the byte values (R83). -/
theorem crcRom_bijective : Function.Bijective crcRom := by
  rw [funext crcRom_eq_crcLoop]
  exact Finite.injective_iff_bijective.1 crcLoop_injective

/-- Settles O8: the listed table is the generated one, and the loop that generates it loses nothing. -/
theorem tableIsTheGeneratedOne : Obligations.TableIsTheGeneratedOne :=
  ⟨crcRom_eq_crcLoop, rfl, rfl, rfl, rfl, crcRom_bijective⟩

/-! ## The checksum -/

theorem crc8_singleton (b : Byte) : crc8 [b] = crcRom b := congrArg crcRom BitVec.zero_xor

/-- A leading zero leaves the accumulator at its initial value (R85). -/
theorem crc8_zero_cons (data : List Byte) : crc8 (0 :: data) = crc8 data := by
  have hstart : crcUpdate 0 0 = 0 := (crcUpdate_self 0).trans crcRom_zero
  exact congrArg (List.foldl crcUpdate · data) hstart

/-- The checksum of a sequence with its own checksum appended is 0 (R85). -/
theorem crc8_concat_self (data : List Byte) : crc8 (data ++ [crc8 data]) = 0 := by
  rw [crc8_concat, crcUpdate_self, crcRom_zero]

/-- The byte step is linear in the accumulator and the byte together (R84). -/
theorem crcUpdate_xor (acc acc' b b' : Byte) :
    crcUpdate (acc ^^^ acc') (b ^^^ b') = crcUpdate acc b ^^^ crcUpdate acc' b' := by
  simp only [crcUpdate, ← crcRom_xor]
  ac_rfl

theorem foldl_crcUpdate_xor {data other : List Byte} (h : data.length = other.length) (acc acc' : Byte) :
    (List.zipWith (· ^^^ ·) data other).foldl crcUpdate (acc ^^^ acc') =
      data.foldl crcUpdate acc ^^^ other.foldl crcUpdate acc' := by
  induction data generalizing other acc acc' with
  | nil =>
    cases List.length_eq_zero_iff.1 h.symm
    rfl
  | cons b data ih =>
    obtain ⟨b', other, rfl⟩ := List.exists_cons_of_length_eq_add_one h.symm
    simp only [List.zipWith_cons_cons, List.foldl_cons, crcUpdate_xor]
    exact ih (Nat.succ.inj h) _ _

/-- The checksum is linear on sequences of one length (R85). -/
theorem crc8_xor {data other : List Byte} (h : data.length = other.length) :
    crc8 (List.zipWith (· ^^^ ·) data other) = crc8 data ^^^ crc8 other :=
  foldl_crcUpdate_xor h 0 0

/-- Settles O9: the byte step gives the recursion and the two ends; linearity is that of the table, byte by byte. -/
theorem checksumFunction : Obligations.ChecksumFunction :=
  ⟨rfl, crc8_concat, crc8_singleton, crc8_zero_cons, rfl, crc8_concat_self, fun _ _ => crc8_xor, rfl⟩

/-! ## CRC_VALIDATE -/

theorem execCrcValidate_of_match {data : List Byte} {expected : Byte} (s : State) (h : crc8 data = expected) :
    execCrcValidate data expected s = .next (answerPure .ok s) := by
  simp [execCrcValidate, validate_eq_none.2 h]

theorem execCrcValidate_of_mismatch {data : List Byte} {expected : Byte} (s : State) (h : crc8 data ≠ expected) :
    execCrcValidate data expected s = .next (answerPure (.checksum expected (crc8 data)) s) := by
  simp [execCrcValidate, validate_eq_some.2 ⟨h, rfl⟩]

/-- Settles O11: the two verdicts of the validator (R88), and the frame as in O5. -/
theorem crcValidateAnswers : Obligations.CrcValidateAnswers := fun s data _ =>
  ⟨execCrcValidate_of_match s, execCrcValidate_of_mismatch s,
    fun len hlen => decodeFrame_of_decodeRequest_ok (decodeRequest_crcValidate len data [] _ hlen)⟩

end Sys2Proof.Machine
end

section
/-! PROOFS. The command table (41_command_table.md R94, R101): CMD_LOOKUP answers with the pair of the selector its operand names, and
an operand that names none is refused by the decoder and by the operation alike. -/

namespace Sys2Proof

@[simp] theorem Selector.ofByte_code (c : Selector) : Selector.ofByte c.code = some c := by
  cases c <;> rfl

/-- Operand bytes 5 to 255 name no selector (R67, R74). -/
theorem Selector.ofByte_eq_none {sel : Byte} (h : 5 ≤ sel.toNat) : Selector.ofByte sel = none := by
  simp only [Selector.ofByte]
  split
  case h_6 => rfl
  all_goals omega

end Sys2Proof

namespace Sys2Proof.Machine

/-- A lookup of a selector's own number answers with that selector's entry, and no state stands in its way (R101). -/
theorem execCmdLookup_code (c : Selector) (s : State) :
    execCmdLookup c.code s = .next (answerPure (.okCommand (cmdRom c).opcode (cmdRom c).delayMs) s) := by
  simp [execCmdLookup]

theorem execCmdLookup_of_five_le {sel : Byte} (s : State) (h : 5 ≤ sel.toNat) :
    execCmdLookup sel s = .refused .illegalSelector := by
  simp [execCmdLookup, Selector.ofByte_eq_none h]

/-- Settles O12: the five entries of the table, one for each selector; the frame by the decoder's bound on its operand. -/
theorem cmdLookupAnswers : Obligations.CmdLookupAnswers := by
  refine fun s => ⟨execCmdLookup_code .softReset s, execCmdLookup_code .trigTempNohold s, execCmdLookup_code .trigHumNohold s,
    execCmdLookup_code .readUserReg s, execCmdLookup_code .writeUserReg s, fun sel => ⟨fun hsel => ?_, fun hsel => ⟨?_, ?_⟩⟩⟩
  · exact decodeFrame_of_decodeRequest_ok ((decodeRequest_cmdLookup sel []).trans (if_pos hsel))
  · have hnot : ¬ sel.toNat ≤ 4 := by omega
    exact decodeFrame_of_decodeRequest_bad ((decodeRequest_cmdLookup sel []).trans (if_neg hnot))
  · exact execCmdLookup_of_five_le s hsel

end Sys2Proof.Machine
end

section
/-! PROOFS. The failure paths of a transaction (42_sequencer.md R114 to R116) and the pure operations (R121). A transaction under way is
written as the state between transactions that it will leave, put into its phase: then each row of R106 is one equation, and a path
is the chain of its rows. -/

namespace Sys2Proof.Machine

/-! ## The rows of R106 along a transaction -/

theorem runSequencer_of_step {s t : State} (h : sequencerStep s = some t) (n : Nat) : runSequencer (n + 1) s = runSequencer n t := by
  simp [runSequencer, h]

theorem runSequencer_of_none {s : State} (h : sequencerStep s = none) (n : Nat) : runSequencer n s = s := by
  cases n <;> simp [runSequencer, h]

/-- The state `s` in the midst of the transaction in its `CUR`: the guard held for it, the sequencer in phase `p`, these inputs
still to come. -/
def inTransaction (p : Phase) (inputs : List Input) (s : State) : State :=
  { s with lock := .held s.cur.who, phase := p, inputs := inputs }

/-- An admission is followed by LOOKUP. -/
theorem runSequencer_acquire {s : State} (hno : s.inputs.head? ≠ some .hardwareReset) (who : Requester) (op : GuardedOp) (n : Nat) :
    runSequencer (n + 1) (acquire who op s) = runSequencer n (phaseLookup (acquire who op s)) :=
  runSequencer_of_step (sequencerStep_of_no_reset (s := acquire who op s) hno) n

/-- The write is refused: the end with TransportError at once (R114). -/
theorem runSequencer_writeRefused (s : State) (e : TErr) (rest : List Input) (n : Nat) :
    runSequencer (n + 1) (inTransaction .write (.writeAnswered (.err e) :: rest) s) =
      runSequencer n (inTransaction .respond rest (recordEnding (.transportError e) (emit (.writeAnswer (.err e)) s))) := rfl

/-- The write is accepted, and the delay that this starts comes to its end. -/
theorem runSequencer_writeAccepted (s : State) (extra : Nat) (rest : List Input) (n : Nat) :
    runSequencer (n + 2) (inTransaction .write (.writeAnswered .ok :: .wake extra :: rest) s) =
      runSequencer n (phaseDelay extra (inTransaction .delay rest (startDelay (emit (.writeAnswer .ok) s)))) := rfl

/-- The read fails: the end with TransportError, `RAW` left open (R115). -/
theorem runSequencer_readFailed (s : State) (e : TErr) (rest : List Input) (n : Nat) :
    runSequencer (n + 1) (inTransaction .read (.readAnswered (.err e) :: rest) s) =
      runSequencer n (inTransaction .respond rest
        (recordEnding (.transportError e) (freeSample (emit (.readAnswer (.err e)) s)))) := rfl

theorem runSequencer_frameRead (s : State) (f : Sample) (rest : List Input) (n : Nat) :
    runSequencer (n + 1) (inTransaction .read (.readAnswered (.ok f) :: rest) s) =
      runSequencer n (inTransaction .check rest { emit (.readAnswer (.ok f)) s with raw := f }) := rfl

/-- The frame fails its check: the end with ChecksumError, the byte read and the byte computed (R116). -/
theorem runSequencer_checkFailed {s : State} {rest : List Input} (hno : rest.head? ≠ some .hardwareReset)
    (hcrc : crc8 [s.raw.msb, s.raw.lsb] ≠ s.raw.crc) (n : Nat) :
    runSequencer (n + 1) (inTransaction .check rest s) =
      runSequencer n (inTransaction .respond rest
        (recordEnding (.checksumError ⟨s.raw.crc, crc8 [s.raw.msb, s.raw.lsb]⟩)
          { s with crcAcc := crc8 [s.raw.msb, s.raw.lsb] })) := by
  have hstep : sequencerStep (inTransaction .check rest s) = some (phaseCheck (inTransaction .check rest s)) :=
    sequencerStep_of_no_reset hno
  rw [runSequencer_of_step hstep, Safety.phaseCheck_of_mismatch (by exact hcrc)]
  rfl

end Sys2Proof.Machine

namespace Sys2Proof.Safety

open Sys2Proof.Machine

/-- RESPOND sends the one response and returns to the state between transactions, IDLE with the guard free (R106). -/
theorem runSequencer_respond {s : State} {rest : List Input} (hidle : s.phase = .idle) (hfree : s.lock = .free)
    (hno : rest.head? ≠ some .hardwareReset) (n : Nat) :
    runSequencer (n + 1) (inTransaction .respond rest s) = withResponse (responseOf s) rest s := by
  have hrespond : respond (inTransaction .respond rest s) = withResponse (responseOf s) rest s := by
    unfold withResponse
    rw [hidle, hfree]
    rfl
  have hstep : sequencerStep (inTransaction .respond rest s) = some (respond (inTransaction .respond rest s)) :=
    sequencerStep_of_no_reset hno
  rw [runSequencer_of_step hstep, hrespond, runSequencer_of_none (sequencerStep_idle (by exact hidle))]

/-! ## From the call to the bus -/

/-- INIT uses the address that its request carries in a byte (R63, R72). -/
theorem addrOperand_setWidth (a : DevAddr) : addrOperand (a.setWidth 8) = a := by
  ext i hi
  simp [addrOperand, hi, Nat.lt_succ_of_lt hi]

section
variable {s : State} {op : GuardedOp} {rest : List Input}

/-- An admissible operation of a requester that has nothing outstanding is called (R105, R120). -/
theorem exec_of_admissible (hadm : admissible op s) (hq : quietFor s) : exec op.toInstr s = .next (call op s) := by
  have hout : outstanding s s.issuer = false := by simp [outstanding, hq.none, hq.free]
  have hready (op' : GuardedOp) (hr : s.ready = true) : callReady op' s = .next (call op' s) := by simp [callReady, hr, hout]
  cases op with
  | init a =>
    obtain ⟨hr, hno⟩ := hadm
    have hmsb : (a.setWidth 8).msb = false := by simp [BitVec.msb_setWidth]
    simp [GuardedOp.toInstr, exec, execInit, hmsb, hr, hno, hout, addrOperand_setWidth]
  | reset => exact hready _ hadm
  | rdTempC => exact hready _ hadm
  | rdTempF => exact hready _ hadm
  | rdHum => exact hready _ hadm

/-- A request admitted at once leaves `PEND` as it was, and its LOOKUP loads the command, for INIT binds the address, and makes the
write call (R22, R106, R119). -/
theorem phaseLookup_acquire (op : GuardedOp) (hq : quietFor s) :
    phaseLookup (acquire s.issuer op (inputsLeft rest { s with pend := s.pend.put s.issuer op })) =
      inTransaction .write rest (withCommandSent op (wireByte op) (BitVec.ofNat 8 (leastDelayMs op)) s) := by
  have hpend : (s.pend.put s.issuer op).drop s.issuer = s.pend := Pending.drop_put _ _ _ hq.none
  simp only [acquire, inputsLeft, hpend]
  cases op <;> rfl

/-- An admissible operation that the guard admits next has made its write call; seven steps of the sequencer are left to it. -/
theorem exec_admitted (hadm : admissible op s) (hq : quietFor s) (hin : s.inputs = .grant s.issuer :: rest)
    (hno : rest.head? ≠ some .hardwareReset) :
    exec op.toInstr s = .next (runSequencer 7
      (inTransaction .write rest (withCommandSent op (wireByte op) (BitVec.ofNat 8 (leastDelayMs op)) s))) := by
  rw [exec_of_admissible hadm hq, call_admitted hq.free hin, runTransaction, runSequencer_acquire (by exact hno),
    phaseLookup_acquire op hq]

theorem admissible_of_readsFrame (hop : readsFrame op = true) (hr : s.ready = true) : admissible op s := by
  cases op <;> simp_all [readsFrame, admissible]

theorem addrOf_of_readsFrame (hop : readsFrame op = true) : addrOf op s = s.devAddr := by
  cases op <;> simp_all [readsFrame, addrOf]

/-- The end of a measurement's delay makes the read call, at the time the delay ended (R106, R174). -/
theorem phaseDelay_of_accepted (hop : readsFrame op = true) (opcode delayMs : Byte) (extra : Nat) :
    phaseDelay extra (inTransaction .delay rest (startDelay (emit (.writeAnswer .ok) (withCommandSent op opcode delayMs s)))) =
      inTransaction .read rest (emit (.readCall (busAddr s.devAddr) 3) (withDelayOver op opcode delayMs extra s)) := by
  rw [phaseDelay_of_measures (by exact (readsFrame_eq_measures op).symm.trans hop), ← addrOf_of_readsFrame hop]
  rfl

/-- A measurement whose write is accepted and whose delay ends has made its read call; five steps are left to it. -/
theorem exec_readCalled {extra : Nat} (hop : readsFrame op = true) (hr : s.ready = true) (hq : quietFor s)
    (hin : s.inputs = .grant s.issuer :: .writeAnswered .ok :: .wake extra :: rest) :
    exec op.toInstr s = .next (runSequencer 5 (inTransaction .read rest (emit (.readCall (busAddr s.devAddr) 3)
      (withDelayOver op (wireByte op) (BitVec.ofNat 8 (leastDelayMs op)) extra s)))) := by
  rw [exec_admitted (admissible_of_readsFrame hop hr) hq hin (by simp), runSequencer_writeAccepted, phaseDelay_of_accepted hop]

end

/-! ## The three failures -/

/-- Settles O25: LOOKUP, WRITE refused, RESPOND. -/
theorem writeFailureEndsTheOperationAtOnce : Obligations.WriteFailureEndsTheOperationAtOnce := by
  intro s op e rest hadm hq hin hno
  rw [exec_admitted hadm hq hin (by simp), runSequencer_writeRefused,
    runSequencer_respond (by exact hq.idle) (by exact hq.free) hno]
  rfl

/-- Settles O26: LOOKUP, WRITE, DELAY, READ failed, RESPOND; `RAW` and the counter are what the free sample left. -/
theorem readFailureEndsTheMeasurement : Obligations.ReadFailureEndsTheMeasurement := by
  intro s op e extra rest hop hr hq hin hno
  rw [exec_readCalled hop hr hq hin, runSequencer_readFailed,
    runSequencer_respond (by exact hq.idle) (by exact hq.free) hno]
  exact ⟨_, rfl, rfl⟩

/-- Settles O27: LOOKUP, WRITE, DELAY, READ, CHECK failed, RESPOND. -/
theorem checkFailureEndsTheMeasurement : Obligations.CheckFailureEndsTheMeasurement := by
  intro s op f extra rest hop hr hq hin hno hcrc
  rw [exec_readCalled hop hr hq hin, runSequencer_frameRead, runSequencer_checkFailed hno (by exact hcrc),
    runSequencer_respond (by exact hq.idle) (by exact hq.free) hno, ← addrOf_of_readsFrame (s := s) hop]
  rfl

end Sys2Proof.Safety

/-! ## The pure operations -/

namespace Sys2Proof

theorem decodeInit_wf {tail rest : List Byte} {i : Instr} (h : decodeInit tail = .ok i rest) : i.wf = true := by
  unfold decodeInit at h
  split at h
  · cases h
  · split at h <;> cases h
    rename_i hmsb
    simpa [Instr.wf] using hmsb

theorem decodeLookup_wf {tail rest : List Byte} {i : Instr} (h : decodeLookup tail = .ok i rest) : i.wf = true := by
  unfold decodeLookup at h
  split at h
  · cases h
  · split at h <;> cases h
    rename_i hsel
    exact decide_eq_true hsel

theorem decodeCrc_wf {tail rest : List Byte} {i : Instr} (h : decodeCrc tail = .ok i rest) : i.wf = true := by
  unfold decodeCrc at h
  split at h
  · cases h
  · rename_i len data
    split at h <;> cases h
    have hlen : len.toNat < 256 := len.isLt
    simp only [Instr.wf, List.length_take, decide_eq_true_eq]
    omega

/-- What the decoder accepts keeps the operand limits of R63 and R74. -/
theorem decodeRequest_wf {frame rest : List Byte} {i : Instr} (h : decodeRequest frame = .ok i rest) : i.wf = true := by
  unfold decodeRequest at h
  split at h
  · cases h
  · split at h
    case h_1 => exact decodeInit_wf h
    case h_6 => exact decodeCrc_wf h
    case h_7 => exact decodeLookup_wf h
    case h_8 => cases h
    all_goals
      cases h
      rfl

/-- Operand bytes 0 to 4 name a selector (R67). -/
theorem Selector.exists_ofByte {sel : Byte} (h : sel.toNat ≤ 4) : ∃ c, Selector.ofByte sel = some c := by
  simp only [Selector.ofByte]
  interval_cases sel.toNat <;> exact ⟨_, rfl⟩

end Sys2Proof

namespace Sys2Proof.Machine

/-- A block that waits takes a frame that is a request, and runs it (R63, R105). -/
theorem step_of_request {s : State} {who : Requester} {frame : List Byte} {rest : List Input} {i : Instr}
    (hw : s.phase.waits = true) (hin : s.inputs = .request who frame :: rest) (hd : decodeFrame frame = .ok i []) :
    step s = exec i (atPort who rest s) := by
  simp [step, nextAct, nextInput, hw, hin, hd]

/-- A well-formed pure operation is answered in every state, whatever LOCK and READY are (R121). -/
theorem exec_pure {i : Instr} (hhost : i.isHost = true) (hpure : i.guarded = none) (hwf : i.wf = true) (s : State) :
    ∃ r, exec i s = .next (answerPure r s) := by
  cases i with
  | crcValidate data expected =>
    by_cases hcrc : crc8 data = expected
    · exact ⟨_, execCrcValidate_of_match s hcrc⟩
    · exact ⟨_, execCrcValidate_of_mismatch s hcrc⟩
  | cmdLookup sel =>
    obtain ⟨c, hc⟩ := Selector.exists_ofByte (of_decide_eq_true hwf)
    exact ⟨.okCommand (cmdRom c).opcode (cmdRom c).delayMs, by simp [exec, execCmdLookup, hc]⟩
  | init _ | reset | rdTempC | rdTempF | rdHum => cases hpure
  | softReset | trigTempNohold | trigHumNohold | readUserReg | writeUserReg => cases hhost

/-- Settles O46: the decoder hands over a well-formed request, and its answer is the whole of the step. -/
theorem pureOperationsDisturbNothing : Obligations.PureOperationsDisturbNothing := by
  intro s who frame rest i hw hin hd hhost hpure
  obtain ⟨r, hr⟩ := exec_pure hhost hpure (decodeRequest_wf (decodeFrame_ok hd).2) (atPort who rest s)
  exact ⟨r, (step_of_request hw hin hd).trans hr⟩

end Sys2Proof.Machine
end

section
/-! PROOFS. The converter (43_converter.md R128, R136, R139). In the range of R12 a rounding moves a value by at most 2^-16, and
no quantity that the block rounds leaves that range; neighbouring raw values lie further apart than two roundings can bring together,
so the order of the exact formulas is the order of the patterns. -/

namespace Sys2Proof.Machine

/-! ## The decode of the two data bytes -/

theorem decode16_toNat (b0 b1 : Byte) : (decode16 b0 b1).toNat = 256 * b0.toNat + b1.toNat := by
  have hlow : b1.toNat < 2 ^ 8 := b1.isLt
  have hshift : b0.toNat <<< 8 < 2 ^ 16 := by rw [Nat.shiftLeft_eq]; omega
  have hb0 : b0.toNat % 2 ^ 16 = b0.toNat := Nat.mod_eq_of_lt (by omega)
  have hb1 : b1.toNat % 2 ^ 16 = b1.toNat := Nat.mod_eq_of_lt (by omega)
  rw [decode16, BitVec.toNat_or, BitVec.toNat_shiftLeft, BitVec.toNat_setWidth, BitVec.toNat_setWidth, hb0, hb1,
    Nat.mod_eq_of_lt hshift, ← Nat.shiftLeft_add_eq_or_of_lt hlow, Nat.shiftLeft_eq]
  omega

theorem decode16_injective : Function.Injective fun p : Byte × Byte => decode16 p.1 p.2 := by
  rintro ⟨a0, a1⟩ ⟨b0, b1⟩ h
  have hnat : 256 * a0.toNat + a1.toNat = 256 * b0.toNat + b1.toNat := by
    rw [← decode16_toNat, ← decode16_toNat]; exact congrArg BitVec.toNat h
  exact Prod.ext (BitVec.eq_of_toNat_eq (by simp only; omega)) (BitVec.eq_of_toNat_eq (by simp only; omega))

theorem decode16_surjective : Function.Surjective fun p : Byte × Byte => decode16 p.1 p.2 := by
  intro d
  refine ⟨(BitVec.ofNat 8 (d.toNat / 256), BitVec.ofNat 8 (d.toNat % 256)), BitVec.eq_of_toNat_eq ?_⟩
  simp only [decode16_toNat, BitVec.toNat_ofNat]
  omega

/-- Settles O13: bytes that decode alike are the same pair, in the same order. -/
theorem decodeIsBigEndian : Obligations.DecodeIsBigEndian := by
  refine ⟨decode16_toNat, ⟨decode16_injective, decode16_surjective⟩, fun b0 b1 hne h => ?_, by decide⟩
  have hpair : (b1, b0) = (b0, b1) := decode16_injective h
  exact hne (congrArg Prod.snd hpair)

/-! ## Rounding in the range of R12 -/

/-- The range in which R12 defines the rounding. -/
def InRoundingRange (q : ℚ) : Prop := 1 / 2 ^ 14 ≤ |q| ∧ |q| < 2 ^ 9

theorem inRoundingRange_of_bounds {q : ℚ} (hgap : q ≤ -(1 / 2 ^ 14) ∨ 1 / 2 ^ 14 ≤ q) (hlo : -2 ^ 9 < q) (hhi : q < 2 ^ 9) :
    InRoundingRange q :=
  ⟨le_abs'.2 hgap, abs_lt.2 ⟨hlo, hhi⟩⟩

/-- Half a unit in the last place of the largest binade bounds every rounding. -/
theorem rne32_error_le {q : ℚ} (h : InRoundingRange q) : |val32 (rne32 q) - q| ≤ 1 / 2 ^ 16 := by
  obtain ⟨k, -, hk, -, -, herr⟩ := rne32_error q h.1 h.2
  calc |val32 (rne32 q) - q| ≤ 2 ^ k / 2 ^ 150 := herr
    _ ≤ 2 ^ 134 / 2 ^ 150 := by gcongr; norm_num
    _ = 1 / 2 ^ 16 := by norm_num

/-- Values further apart than two roundings keep their order. -/
theorem val32_rne32_lt {q r : ℚ} (hq : InRoundingRange q) (hr : InRoundingRange r) (hqr : q + 1 / 2 ^ 15 < r) :
    val32 (rne32 q) < val32 (rne32 r) := by
  have hup := (abs_le.1 (rne32_error_le hq)).2
  have hdown := (abs_le.1 (rne32_error_le hr)).1
  linarith

/-- A rounding in range stays in the closed range: the significand has 24 bits, or is the next power of two. -/
theorem rne32_normal {q : ℚ} (h : InRoundingRange q) :
    isFinite32 (rne32 q) = true ∧ exponentField (rne32 q) ≠ 0 ∧ 1 / 2 ^ 14 ≤ |val32 (rne32 q)| ∧ |val32 (rne32 q)| ≤ 2 ^ 9 := by
  obtain ⟨k, m, hk1, hk2, hm1, hm2, -, -, -, hval, hfin, hexp, -⟩ := rne32_spec q h.1 h.2
  have habs : |val32 (rne32 q)| = m * 2 ^ k / 2 ^ 149 := by
    have hsign : |if q < 0 then (-1 : ℚ) else 1| = 1 := by split_ifs <;> simp
    rw [hval, abs_mul, hsign, one_mul, abs_of_nonneg (by positivity)]
  have hm1' : (2 : ℚ) ^ 23 ≤ m := by exact_mod_cast hm1
  have hm2' : (m : ℚ) ≤ 2 ^ 24 := by exact_mod_cast hm2
  refine ⟨hfin, hexp, ?_, ?_⟩
  · calc (1 : ℚ) / 2 ^ 14 = (2 : ℚ) ^ 23 * 2 ^ 112 / 2 ^ 149 := by norm_num
      _ ≤ (m : ℚ) * 2 ^ k / 2 ^ 149 := by gcongr; norm_num
      _ = |val32 (rne32 q)| := habs.symm
  · calc |val32 (rne32 q)| = m * 2 ^ k / 2 ^ 149 := habs
      _ ≤ 2 ^ 24 * 2 ^ 134 / 2 ^ 149 := by gcongr; norm_num
      _ = 2 ^ 9 := by norm_num

/-! ## What the block rounds -/

/-- The quantity that CONV_TEMP_F rounds (R132): the Fahrenheit formula of the rounded Celsius value. -/
def fahrenheit (d : Raw16) : ℚ := val32 (convTempC32 d) * (9 / 5) + 32

theorem convTempF32_convTempC32 (d : Raw16) : convTempF32 (convTempC32 d) = rne32 (fahrenheit d) := rfl

theorem raw16_le (d : Raw16) : (d.toNat : ℚ) ≤ 65535 := by
  exact_mod_cast Nat.le_of_lt_succ d.isLt

/-- Raw values lie on one side or the other of the gap between `k` and `k + 1`. -/
theorem raw16_gap (d : Raw16) (k : Nat) : (d.toNat : ℚ) ≤ k ∨ (k : ℚ) + 1 ≤ d.toNat := by
  exact_mod_cast Nat.lt_or_ge k d.toNat |>.symm

/-- The Celsius formula passes zero between the raw values 17473 and 17474. -/
theorem celsius_inRoundingRange (d : Raw16) : InRoundingRange (celsius d) := by
  have hgap := raw16_gap d 17473
  rw [Nat.cast_ofNat] at hgap
  have hmax := raw16_le d
  have hmin : (0 : ℚ) ≤ d.toNat := Nat.cast_nonneg _
  unfold celsius
  exact inRoundingRange_of_bounds (hgap.imp (fun h => by linarith) fun h => by linarith) (by linarith) (by linarith)

/-- The humidity formula passes zero between the raw values 3145 and 3146. -/
theorem humidity_inRoundingRange (d : Raw16) : InRoundingRange (humidity d) := by
  have hgap := raw16_gap d 3145
  rw [Nat.cast_ofNat] at hgap
  have hmax := raw16_le d
  have hmin : (0 : ℚ) ≤ d.toNat := Nat.cast_nonneg _
  unfold humidity
  exact inRoundingRange_of_bounds (hgap.imp (fun h => by linarith) fun h => by linarith) (by linarith) (by linarith)

/-- The Fahrenheit value passes zero between the raw values 10842 and 10843, by more than the rounding of the Celsius value. -/
theorem fahrenheit_inRoundingRange (d : Raw16) : InRoundingRange (fahrenheit d) := by
  have hgap := raw16_gap d 10842
  rw [Nat.cast_ofNat] at hgap
  have hmax := raw16_le d
  have hmin : (0 : ℚ) ≤ d.toNat := Nat.cast_nonneg _
  obtain ⟨hdown, hup⟩ := abs_le.1 (rne32_error_le (celsius_inRoundingRange d))
  unfold celsius at hdown hup
  unfold fahrenheit convTempC32 celsius
  exact inRoundingRange_of_bounds (hgap.imp (fun h => by linarith) fun h => by linarith) (by linarith) (by linarith)

/-! ## The distance of neighbouring raw values -/

section
variable {d e : Raw16}

theorem raw16_succ_le (h : d.toNat < e.toNat) : (d.toNat : ℚ) + 1 ≤ e.toNat := by
  exact_mod_cast h

theorem celsius_spacing (h : d.toNat < e.toNat) : celsius d + 1 / 2 ^ 10 < celsius e := by
  have hsucc := raw16_succ_le h
  unfold celsius
  linarith

theorem humidity_spacing (h : d.toNat < e.toNat) : humidity d + 1 / 2 ^ 10 < humidity e := by
  have hsucc := raw16_succ_le h
  unfold humidity
  linarith

/-- The two roundings of the Celsius values take away less than half of their distance. -/
theorem fahrenheit_spacing (h : d.toNat < e.toNat) : fahrenheit d + 1 / 2 ^ 11 < fahrenheit e := by
  have hspacing := celsius_spacing h
  have hup := (abs_le.1 (rne32_error_le (celsius_inRoundingRange d))).2
  have hdown := (abs_le.1 (rne32_error_le (celsius_inRoundingRange e))).1
  unfold fahrenheit convTempC32
  linarith

end

/-- Settles O17: what is rounded grows by more than 2^-15 from one raw value to the next, so rounding keeps the order. -/
theorem conversionsStrictlyIncrease : Obligations.ConversionsStrictlyIncrease := by
  intro d e h
  have hc := celsius_spacing h
  have hh := humidity_spacing h
  have hf := fahrenheit_spacing h
  refine ⟨by linarith, by linarith, ?_, ?_, ?_⟩
  · exact val32_rne32_lt (celsius_inRoundingRange d) (celsius_inRoundingRange e) (by linarith)
  · simp only [convTempF32_convTempC32]
    exact val32_rne32_lt (fahrenheit_inRoundingRange d) (fahrenheit_inRoundingRange e) (by linarith)
  · exact val32_rne32_lt (humidity_inRoundingRange d) (humidity_inRoundingRange e) (by linarith)

/-- Settles O18: each result is the rounding of a quantity in the range of R12. -/
theorem resultsAreNormalNumbers : Obligations.ResultsAreNormalNumbers := by
  intro d p hp
  simp only [List.mem_cons, List.not_mem_nil, or_false] at hp
  obtain rfl | rfl | rfl := hp
  · exact rne32_normal (celsius_inRoundingRange d)
  · exact rne32_normal (fahrenheit_inRoundingRange d)
  · exact rne32_normal (humidity_inRoundingRange d)

end Sys2Proof.Machine
end

section
/-! PROOFS. The hardware reset (70_reset_and_hazards.md R164, R181): whatever phase the sequencer is in, the reset comes before its own
next step, and the step is the reset of the block and nothing else. -/

namespace Sys2Proof.Machine

/-- A hardware reset that comes next is taken at once: it waits for no phase and stands before the sequencer's own steps. -/
theorem step_of_hardwareReset {s : State} {rest : List Input} (hin : s.inputs = .hardwareReset :: rest) :
    step s = .next (resetBlock (inputsLeft rest s)) := by
  have hreset : resetNext s = true := resetNext_iff.2 (by rw [hin]; rfl)
  have hact : nextAct s = nextInput s := if_pos (by rw [hreset, Bool.or_true])
  simp [step, hact, nextInput, hin]

/-! What the reset leaves of a state: the values of R37, and the model's own fields with the reset seen. -/

@[simp] theorem resetBlock_ready (s : State) : (resetBlock s).ready = State.reset.ready := rfl
@[simp] theorem resetBlock_lock (s : State) : (resetBlock s).lock = State.reset.lock := rfl
@[simp] theorem resetBlock_pend (s : State) : (resetBlock s).pend = State.reset.pend := rfl
@[simp] theorem resetBlock_phase (s : State) : (resetBlock s).phase = State.reset.phase := rfl
@[simp] theorem resetBlock_inputs (s : State) : (resetBlock s).inputs = s.inputs := rfl
@[simp] theorem resetBlock_now (s : State) : (resetBlock s).now = s.now := rfl
@[simp] theorem resetBlock_trace (s : State) : (resetBlock s).trace = ⟨s.now, .hardwareReset⟩ :: s.trace := rfl

end Sys2Proof.Machine

namespace Sys2Proof.Safety

open Sys2Proof.Machine

/-- Settles O39: the step is the reset of the block, whose four values of R37 are O40's. -/
theorem hardwareResetAbandonsTheTransaction : Obligations.HardwareResetAbandonsTheTransaction := by
  intro s rest hin
  obtain ⟨hready, hlock, hpend, hphase, -⟩ := resetState
  refine ⟨resetBlock (inputsLeft rest s), step_of_hardwareReset hin, ?_⟩
  simp [hready, hlock, hpend, hphase]

end Sys2Proof.Safety
end

section
/-! PROOFS. Encodings (30_encoding.md R63, R64, R69, R73, R74). Each form of a host request is taken apart once: the bytes its decoder
takes are the bytes its encoder gives. -/

namespace Sys2Proof

/-! ## Host requests -/

/-- Settles O2: the decoder's equation of each form; the length byte of CRC_VALIDATE holds every legal length. -/
theorem hostRequestsSurviveEncoding : Obligations.HostRequestsSurviveEncoding := by
  intro i rest hhost hwf
  cases i with
  | init addr =>
    have hmsb : ¬ addr.msb = true := by simpa [Instr.wf] using hwf
    exact (decodeRequest_init addr rest).trans (if_neg hmsb)
  | crcValidate data expected =>
    have hlen : data.length ≤ 255 := of_decide_eq_true hwf
    have hbyte : data.length = (BitVec.ofNat 8 data.length).toNat := by rw [BitVec.toNat_ofNat]; omega
    have hbytes : encode (.crcValidate data expected) ++ rest =
        0x05 :: BitVec.ofNat 8 data.length :: (data ++ expected :: rest) := by simp [encode, encodeWith]
    rw [hbytes]
    exact decodeRequest_crcValidate _ data rest expected hbyte
  | cmdLookup sel => exact (decodeRequest_cmdLookup sel rest).trans (if_pos (of_decide_eq_true hwf))
  | reset | rdTempC | rdTempF | rdHum => rfl
  | softReset | trigTempNohold | trigHumNohold | readUserReg | writeUserReg => cases hhost

section
variable {tail rest : List Byte} {i : Instr}

theorem decodeInit_eq_ok (h : decodeInit tail = .ok i rest) : i.isHost = true ∧ 0x00 :: tail = encode i ++ rest := by
  unfold decodeInit at h
  split at h
  · cases h
  · split at h <;> cases h
    exact ⟨rfl, rfl⟩

theorem decodeLookup_eq_ok (h : decodeLookup tail = .ok i rest) : i.isHost = true ∧ 0x06 :: tail = encode i ++ rest := by
  unfold decodeLookup at h
  split at h
  · cases h
  · split at h <;> cases h
    exact ⟨rfl, rfl⟩

/-- The data that CRC_VALIDATE takes is as long as its length byte says, since the expected byte stands after it. -/
theorem decodeCrc_eq_ok (h : decodeCrc tail = .ok i rest) : i.isHost = true ∧ 0x05 :: tail = encode i ++ rest := by
  unfold decodeCrc at h
  split at h
  · cases h
  · rename_i len data
    split at h
    · cases h
    · rename_i expected _ hdrop
      cases h
      have hlong : 0 < (data.drop len.toNat).length := by rw [hdrop]; exact Nat.succ_pos _
      have hlen : (data.take len.toNat).length = len.toNat := by
        rw [List.length_drop] at hlong
        exact List.length_take_of_le (by omega)
      have hbyte : BitVec.ofNat 8 (data.take len.toNat).length = len := by rw [hlen, BitVec.ofNat_toNat, BitVec.setWidth_eq]
      have hdata : (data.take len.toNat ++ [expected]) ++ rest = data := by
        rw [List.append_assoc, List.singleton_append, ← hdrop, List.take_append_drop]
      exact ⟨rfl, congrArg₂ (0x05#8 :: · :: ·) hbyte.symm hdata.symm⟩

/-- What the decoder accepts is a host operation, and the bytes it took are that operation's encoding. -/
theorem decodeRequest_eq_ok {bytes : List Byte} (h : decodeRequest bytes = .ok i rest) :
    i.isHost = true ∧ bytes = encode i ++ rest := by
  unfold decodeRequest at h
  split at h
  · cases h
  · rename_i op tail
    have hop (b : Byte) (hb : op.toNat = b.toNat) : op = b := BitVec.eq_of_toNat_eq hb
    split at h
    case h_1 hnat => exact hop 0x00 hnat ▸ decodeInit_eq_ok h
    case h_2 hnat => cases h; exact ⟨rfl, congrArg (· :: rest) (hop 0x01 hnat)⟩
    case h_3 hnat => cases h; exact ⟨rfl, congrArg (· :: rest) (hop 0x02 hnat)⟩
    case h_4 hnat => cases h; exact ⟨rfl, congrArg (· :: rest) (hop 0x03 hnat)⟩
    case h_5 hnat => cases h; exact ⟨rfl, congrArg (· :: rest) (hop 0x04 hnat)⟩
    case h_6 hnat => exact hop 0x05 hnat ▸ decodeCrc_eq_ok h
    case h_7 hnat => exact hop 0x06 hnat ▸ decodeLookup_eq_ok h
    case h_8 => cases h

end

/-- Settles O3: the operand limits as in O46, and the bytes form by form. -/
theorem acceptedRequestsAreEncodings : Obligations.AcceptedRequestsAreEncodings := by
  intro bytes rest i h
  obtain ⟨hhost, hbytes⟩ := decodeRequest_eq_ok h
  exact ⟨hhost, decodeRequest_wf h, hbytes⟩

/-! ## Sensor commands -/

/-- A command byte is decoded to a sensor command, whose encoding it is; for this the five bytes need not differ. -/
theorem decodeCommandWith_eq_some {readOpc writeOpc b : Byte} {i : Instr} (h : decodeCommandWith readOpc writeOpc b = some i) :
    i.isHost = false ∧ encodeWith readOpc writeOpc i = [b] := by
  unfold decodeCommandWith at h
  split_ifs at h <;> cases h <;> exact ⟨rfl, by simp_all [encodeWith]⟩

/-- Settles O4: where the five bytes differ, no earlier row of the decoder takes a command's byte. -/
theorem commandBytesSurviveEncoding : Obligations.CommandBytesSurviveEncoding := by
  intro readOpc writeOpc b i hnodup hcommand
  refine ⟨fun h => ?_, fun h => (decodeCommandWith_eq_some h).2⟩
  simp only [List.nodup_cons, List.mem_cons, List.not_mem_nil, or_false, not_or] at hnodup
  obtain ⟨⟨-, -, hread1, hwrite1⟩, ⟨-, hread2, hwrite2⟩, ⟨hread3, hwrite3⟩, hne, -⟩ := hnodup
  cases i with
  | softReset | trigTempNohold | trigHumNohold => cases h; rfl
  | readUserReg => cases h; simp [decodeCommandWith, Ne.symm hread1, Ne.symm hread2, Ne.symm hread3]
  | writeUserReg => cases h; simp [decodeCommandWith, Ne.symm hwrite1, Ne.symm hwrite2, Ne.symm hwrite3, Ne.symm hne]
  | init _ | reset | rdTempC | rdTempF | rdHum | crcValidate _ _ | cmdLookup _ => cases hcommand

/-- Settles O1: the decoder evaluated on ten written-out words. -/
theorem writtenOutWordsDecode : Obligations.WrittenOutWordsDecode :=
  ⟨rfl, rfl, rfl, rfl, rfl, rfl, rfl, rfl, rfl, rfl⟩

end Sys2Proof
end

section
/-! PROOFS. Error detection by the checksum, and how near the conversions are (40_crc8.md R83, R84; 00_scope.md R12; 43_converter.md
R130 to R133). Rounding is to the nearest of the multiples of the last place; every binary32 value is such a multiple, or it is smaller
than the binade. -/

namespace Sys2Proof.Machine

/-! ## One wrong byte -/

theorem crcUpdate_injective_left (b : Byte) : Function.Injective (crcUpdate · b) := fun _ _ h =>
  (BitVec.xor_left_inj b).1 (crcRom_bijective.injective h)

theorem crcUpdate_injective_right (acc : Byte) : Function.Injective (crcUpdate acc) := fun _ _ h =>
  (BitVec.xor_right_inj acc).1 (crcRom_bijective.injective h)

/-- What follows an accumulator never brings two different ones together. -/
theorem foldl_crcUpdate_injective (data : List Byte) : Function.Injective (data.foldl crcUpdate ·) := by
  induction data with
  | nil => exact fun _ _ h => h
  | cons b data ih => exact fun _ _ h => crcUpdate_injective_left b (ih h)

/-- Settles O10: the two bytes part the accumulators, and the bytes after them keep these apart. -/
theorem oneWrongByteIsAlwaysCaught : Obligations.OneWrongByteIsAlwaysCaught := by
  intro before after b c hne h
  rw [crc8_append, crc8_append] at h
  exact hne (crcUpdate_injective_right _ (foldl_crcUpdate_injective after h))

/-! ## Rounding to nearest, ties to even -/

/-- No integer is nearer to `n / d` than the rounded one, and another one as near makes it even. -/
theorem roundHalfEven_nearest (n d : Nat) (hd : 0 < d) (z : ℤ) :
    |(roundHalfEven n d : ℤ) * d - n| ≤ |z * d - n| ∧
      (|z * d - n| = |(roundHalfEven n d : ℤ) * d - n| → z ≠ roundHalfEven n d → roundHalfEven n d % 2 = 0) := by
  have hup : 2 * ((roundHalfEven n d : ℤ) * d) ≤ 2 * n + d := by exact_mod_cast roundHalfEven_upper n d hd
  have hlow : 2 * (n : ℤ) ≤ 2 * ((roundHalfEven n d : ℤ) * d) + d := by exact_mod_cast roundHalfEven_lower n d hd
  have htie : 2 * ((roundHalfEven n d : ℤ) * d) = 2 * n + d ∨ 2 * (n : ℤ) = 2 * ((roundHalfEven n d : ℤ) * d) + d →
      roundHalfEven n d % 2 = 0 := fun h => roundHalfEven_tie n d hd (by exact_mod_cast h)
  generalize (roundHalfEven n d : ℤ) = r at *
  by_cases hz : z = r
  · exact hz ▸ ⟨le_rfl, fun _ hne => absurd rfl hne⟩
  · have hhalf : 2 * |r * d - n| ≤ d := by
      rcases abs_cases (r * d - (n : ℤ)) with ⟨habs, _⟩ | ⟨habs, _⟩ <;> linarith
    have hapart : (d : ℤ) ≤ |z * d - r * d| := by
      rw [← sub_mul, abs_mul, Nat.abs_cast]
      exact le_mul_of_one_le_left (Int.natCast_nonneg d) (Int.one_le_abs (sub_ne_zero.2 hz))
    have htriangle : |z * d - r * d| ≤ |z * d - n| + |r * d - n| := abs_sub_comm (n : ℤ) (r * d) ▸ abs_sub_le _ _ _
    refine ⟨by linarith, fun heq _ => htie ?_⟩
    rcases abs_cases (r * d - (n : ℤ)) with ⟨habs, _⟩ | ⟨habs, _⟩
    · exact .inl (by linarith)
    · exact .inr (by linarith)

/-- A binary32 value is a sign, a significand of at most 24 bits, and a power of two, down to the least one of subnormals. -/
theorem val32_eq_significand (p : Pattern32) :
    ∃ (sign : ℤ) (m j : Nat), |sign| = 1 ∧ m < 2 ^ 24 ∧ val32 p = sign * (m * 2 ^ j / 2 ^ 149) := by
  have hfraction := (fractionField p).isLt
  have hsignificand : (fractionField p).toNat + (if exponentField p = 0 then 0 else 2 ^ 23) < 2 ^ 24 := by split_ifs <;> omega
  obtain ⟨j, hj⟩ := Nat.exists_eq_add_of_le' (Nat.le_max_right (exponentField p).toNat 1)
  refine ⟨if p.msb then -1 else 1, _, j, by split_ifs <;> rfl, hsignificand, ?_⟩
  have hpow : (2 : ℚ) ^ (j - 149) * 2 ^ 149 = 2 ^ j * 2 ^ (149 - j) := by
    have hsum : j - 149 + 149 = j + (149 - j) := by omega
    rw [← pow_add, ← pow_add, hsum]
  have hscale : (2 : ℚ) ^ (j - 149) / 2 ^ (149 - j) = 2 ^ j / 2 ^ 149 :=
    (div_eq_div_iff (by positivity) (by positivity)).2 hpow
  unfold val32
  simp only [hj, Rat.mkRat_eq_div]
  push_cast
  rw [mul_div_assoc, hscale]
  split_ifs <;> ring

theorem sign_mul_self {sign : ℤ} (h : |sign| = 1) : (sign : ℚ) * sign = 1 := by
  exact_mod_cast (abs_mul_abs_self sign).symm.trans (by rw [h, one_mul])

/-- What may stand for a binary32 value in units of the last place of a binade: an integer, or a number below the binade. -/
def OnGridOrBelow (w : ℚ) : Prop := (∃ z : ℤ, w = z) ∨ |w| < 2 ^ 23

theorem val32_onGridOrBelow (p : Pattern32) {sign : ℤ} (hsign : |sign| = 1) (k : Nat) :
    ∃ w : ℚ, val32 p = sign * w * (2 ^ k / 2 ^ 149) ∧ OnGridOrBelow w := by
  obtain ⟨sign', m, j, hsign', hm, hval⟩ := val32_eq_significand p
  rw [← one_mul (val32 p), ← sign_mul_self hsign, hval]
  rcases Nat.lt_or_ge j k with hjk | hkj
  · obtain ⟨i, rfl⟩ := Nat.exists_eq_add_of_lt hjk
    refine ⟨sign * sign' * (m / 2 ^ (i + 1)), by field_simp; ring, .inr ?_⟩
    have hm' : (m : ℚ) < 2 ^ 24 := by exact_mod_cast hm
    have hs : |(sign * sign' : ℚ)| = 1 := by exact_mod_cast (abs_mul sign sign').trans (by rw [hsign, hsign', one_mul])
    rw [abs_mul, hs, one_mul, abs_of_nonneg (by positivity), div_lt_iff₀ (by positivity)]
    calc (m : ℚ) < 2 ^ 23 * 2 ^ 1 := by linarith
      _ ≤ 2 ^ 23 * 2 ^ (i + 1) := by gcongr <;> norm_num
  · obtain ⟨i, rfl⟩ := Nat.exists_eq_add_of_le hkj
    exact ⟨sign * sign' * (m * 2 ^ i), by ring, .inl ⟨sign * sign' * (m * 2 ^ i), by push_cast; rfl⟩⟩

/-- Among what may stand for a binary32 value the rounded integer is nearest: the lower end of the binade is an integer too, and it is
nearer than anything below it. -/
theorem roundHalfEven_nearest_onGridOrBelow {n d : Nat} (hd : 0 < d) (hge : 2 ^ 23 * d ≤ n) {w : ℚ} (hw : OnGridOrBelow w) :
    |roundHalfEven n d * d - (n : ℚ)| ≤ |w * d - n| ∧
      (|w * d - n| = |roundHalfEven n d * d - (n : ℚ)| → w ≠ roundHalfEven n d → roundHalfEven n d % 2 = 0) := by
  have hinteger (z : ℤ) : |roundHalfEven n d * d - (n : ℚ)| ≤ |z * d - (n : ℚ)| ∧
      (|z * d - (n : ℚ)| = |roundHalfEven n d * d - (n : ℚ)| → (z : ℚ) ≠ roundHalfEven n d → roundHalfEven n d % 2 = 0) := by
    exact_mod_cast roundHalfEven_nearest n d hd z
  rcases hw with ⟨z, rfl⟩ | hbelow
  · exact hinteger z
  · have hend := (hinteger (2 ^ 23)).1
    rw [Int.cast_pow, Int.cast_ofNat] at hend
    have hge' : (2 : ℚ) ^ 23 * d ≤ n := by exact_mod_cast hge
    have hd' : (0 : ℚ) < d := by exact_mod_cast hd
    have hfar : w * d < 2 ^ 23 * d := mul_lt_mul_of_pos_right (lt_of_abs_lt hbelow) hd'
    have hstrict : |(2 : ℚ) ^ 23 * d - n| < |w * d - n| := by
      rw [abs_of_nonpos (by linarith), abs_of_nonpos (by linarith)]
      linarith
    exact ⟨by linarith, fun heq => absurd heq (by linarith)⟩

/-- A rational of the range of R12 and its rounding, measured in the last place of its binade: the one is `n / d`, the other the
integer nearest to it. -/
theorem rne32_in_last_places {q : ℚ} (h : InRoundingRange q) :
    ∃ (sign : ℤ) (k n d : Nat), |sign| = 1 ∧ 0 < d ∧ 2 ^ 23 * d ≤ n ∧ q = sign * (n / d) * (2 ^ k / 2 ^ 149) ∧
      val32 (rne32 q) = sign * roundHalfEven n d * (2 ^ k / 2 ^ 149) ∧
      (rne32 q).getLsbD 0 = decide (roundHalfEven n d % 2 = 1) := by
  obtain ⟨k, m, -, hk, -, -, rfl, hge, -, hval, -, -, hbit⟩ := rne32_spec q h.1 h.2
  refine ⟨if q < 0 then -1 else 1, k, q.num.natAbs * 2 ^ (149 - k), q.den, by split_ifs <;> rfl, q.den_pos, hge, ?_, ?_, hbit⟩
  · have hpow : (2 : ℚ) ^ (149 - k) * 2 ^ k = 2 ^ 149 := by rw [← pow_add, Nat.sub_add_cancel (by omega)]
    have hunit : (q.num.natAbs * 2 ^ (149 - k) / q.den * (2 ^ k / 2 ^ 149) : ℚ) = |q| := by
      calc (q.num.natAbs * 2 ^ (149 - k) / q.den * (2 ^ k / 2 ^ 149) : ℚ)
          = q.num.natAbs / q.den * (2 ^ (149 - k) * 2 ^ k / 2 ^ 149) := by ring
        _ = q.num.natAbs / q.den := by rw [hpow, div_self (by positivity), mul_one]
        _ = |q| := by rw [Nat.cast_natAbs, Int.cast_abs, ← Nat.abs_cast q.den, ← abs_div, Rat.num_div_den]
    push_cast
    rw [mul_assoc, hunit]
    split_ifs with hneg
    · rw [abs_of_neg hneg]; ring
    · rw [abs_of_nonneg (not_lt.1 hneg), one_mul]
  · rw [hval]
    push_cast
    ring

/-- The distance from `n / d` last places, as one of integers where `w` is one. -/
theorem abs_sub_last_places {sign : ℤ} (hsign : |sign| = 1) {n d : Nat} (hd : 0 < d) (unit w : ℚ) :
    |sign * w * unit - sign * (n / d) * unit| = |w * d - n| * |unit / d| := by
  have hd0 : (d : ℚ) ≠ 0 := by exact_mod_cast hd.ne'
  have hs : |(sign : ℚ)| = 1 := by exact_mod_cast hsign
  have hfactor : sign * w * unit - sign * (n / d) * unit = sign * ((w * d - n) * (unit / d)) := by field_simp
  rw [hfactor, abs_mul, hs, one_mul, abs_mul]

/-- Settles O14: in units of the last place the rounding is that of an integer. -/
theorem roundingIsToNearestEven : Obligations.RoundingIsToNearestEven := by
  intro q hlo hhi
  have hrange : InRoundingRange q := ⟨hlo, hhi⟩
  refine ⟨(rne32_normal hrange).1, fun p _ => ?_⟩
  obtain ⟨sign, k, n, d, hsign, hd, hge, hq, hval, hbit⟩ := rne32_in_last_places hrange
  obtain ⟨w, hw, hgrid⟩ := val32_onGridOrBelow p hsign k
  obtain ⟨hnearest, htie⟩ := roundHalfEven_nearest_onGridOrBelow hd hge hgrid
  have hscale : 0 < |(2 : ℚ) ^ k / 2 ^ 149 / d| := by positivity
  rw [hval, hw, hq, abs_sub_last_places hsign hd, abs_sub_last_places hsign hd, mul_le_mul_iff_left₀ hscale,
    mul_left_inj' hscale.ne']
  refine ⟨hnearest, fun heq hne => ?_⟩
  have heven := htie heq fun h => hne (by rw [h])
  rw [← hq, hbit, heven]
  rfl

/-- Below 2^8 the last place is at most 2^-16. -/
theorem exponent_le_of_abs_lt {q : ℚ} {k : Nat} (hle : 2 ^ k / 2 ^ 126 ≤ |q|) (hlt : |q| < 2 ^ 8) : k ≤ 133 := by
  have hpow : (2 : ℚ) ^ k < 2 ^ 134 := by
    calc (2 : ℚ) ^ k ≤ |q| * 2 ^ 126 := (div_le_iff₀ (by positivity)).1 hle
      _ < 2 ^ 8 * 2 ^ 126 := by gcongr
      _ = 2 ^ 134 := by norm_num
  exact Nat.le_of_lt_succ ((pow_lt_pow_iff_right₀ one_lt_two).1 hpow)

/-- The last place of a rational that lies in its binade, 2^23 last places or more from zero. -/
theorem last_place_le_abs {sign : ℤ} (hsign : |sign| = 1) {k n d : Nat} (hd : 0 < d) (hge : 2 ^ 23 * d ≤ n) :
    (2 : ℚ) ^ k / 2 ^ 126 ≤ |(sign : ℚ) * (n / d) * (2 ^ k / 2 ^ 149)| := by
  have hs : |(sign : ℚ)| = 1 := by exact_mod_cast hsign
  have hd0 : (0 : ℚ) < d := by exact_mod_cast hd
  have hquot : (2 : ℚ) ^ 23 ≤ n / d := (le_div_iff₀ hd0).2 (by exact_mod_cast hge)
  rw [mul_assoc, abs_mul, hs, one_mul, abs_of_nonneg (by positivity)]
  calc (2 : ℚ) ^ k / 2 ^ 126 = 2 ^ 23 * (2 ^ k / 2 ^ 149) := by ring
    _ ≤ (n : ℚ) / d * (2 ^ k / 2 ^ 149) := by gcongr

/-- Where the last place is at most 2^-16, a multiple of 2^-16 is a multiple of it. -/
theorem exists_last_places_of_multiple (a : ℤ) {k : Nat} (hk : k ≤ 133) :
    ∃ z : ℤ, (a : ℚ) / 2 ^ 16 = z * (2 ^ k / 2 ^ 149) := by
  obtain ⟨i, hi⟩ := Nat.exists_eq_add_of_le hk
  have hpow : (2 : ℚ) ^ i * 2 ^ k = 2 ^ 133 := by rw [← pow_add, hi, add_comm]
  refine ⟨a * 2 ^ i, ?_⟩
  push_cast
  rw [mul_assoc, ← mul_div_assoc, hpow]
  ring

/-- Below 2^8 rounding keeps a multiple of 2^-16: the integer nearest to an integer is that integer. -/
theorem val32_rne32_of_multiple {q : ℚ} (h : InRoundingRange q) (hlt : |q| < 2 ^ 8) {a : ℤ} (ha : q = a / 2 ^ 16) :
    val32 (rne32 q) = q := by
  obtain ⟨sign, k, n, d, hsign, hd, hge, hq, hval, -⟩ := rne32_in_last_places h
  have hd0 : (d : ℚ) ≠ 0 := by exact_mod_cast hd.ne'
  have hk : k ≤ 133 := exponent_le_of_abs_lt (last_place_le_abs hsign hd hge) (hq ▸ hlt)
  obtain ⟨z, hz⟩ := exists_last_places_of_multiple a hk
  have hplaces : sign * ((n : ℚ) / d) = z := mul_right_cancel₀ (by positivity) (hq.symm.trans (ha.trans hz))
  have hquotient : (n : ℚ) / d = (sign * z : ℤ) := by
    push_cast
    rw [← hplaces, ← mul_assoc, sign_mul_self hsign, one_mul]
  have hround : roundHalfEven n d * d - (n : ℚ) = 0 := by
    have hnearest := (roundHalfEven_nearest_onGridOrBelow hd hge (.inl ⟨_, hquotient⟩)).1
    rw [div_mul_cancel₀ _ hd0, sub_self, abs_zero] at hnearest
    exact abs_nonpos_iff.1 hnearest
  rw [hval, hq, eq_div_of_mul_eq hd0 (sub_eq_zero.1 hround)]

theorem humidity_eq_multiple (d : Raw16) : humidity d = (125 * d.toNat - 393216 : ℤ) / 2 ^ 16 := by
  unfold humidity
  push_cast
  ring

/-- Settles O16: the humidity formula gives multiples of 2^-16 below 2^8. -/
theorem humidityIsExact : Obligations.HumidityIsExact := by
  intro d
  have hmax := raw16_le d
  have hmin : (0 : ℚ) ≤ d.toNat := Nat.cast_nonneg _
  have hlt : |humidity d| < 2 ^ 8 := by
    unfold humidity
    exact abs_lt.2 ⟨by linarith, by linarith⟩
  exact val32_rne32_of_multiple (humidity_inRoundingRange d) hlt (humidity_eq_multiple d)

/-- Settles O19: the Celsius values lie below 2^8, where the last place is half as large as that of the largest binade. -/
theorem temperaturesAreNearTheFormulas : Obligations.TemperaturesAreNearTheFormulas := by
  intro d
  have hc : (175.72 * d.toNat / 65536 - 46.85 : ℚ) = celsius d := by unfold celsius; norm_num
  have hf : val32 (convTempC32 d) * 1.8 + 32 = fahrenheit d := by unfold fahrenheit; norm_num
  have hmax := raw16_le d
  have hmin : (0 : ℚ) ≤ d.toNat := Nat.cast_nonneg _
  have hlt : |celsius d| < 2 ^ 8 := by
    unfold celsius
    exact abs_lt.2 ⟨by linarith, by linarith⟩
  obtain ⟨k, -, -, hle, -, herror⟩ := rne32_error (celsius d) (celsius_inRoundingRange d).1 (celsius_inRoundingRange d).2
  have hk := exponent_le_of_abs_lt hle hlt
  rw [hc, hf]
  refine ⟨?_, rne32_error_le (fahrenheit_inRoundingRange d)⟩
  calc |val32 (convTempC32 d) - celsius d| ≤ 2 ^ k / 2 ^ 150 := herror
    _ ≤ 2 ^ 133 / 2 ^ 150 := by gcongr; norm_num
    _ = 1 / 2 ^ 17 := by norm_num

/-- Settles O15: the conversions evaluated. -/
theorem conversionsOfTheWorkedExamples : Obligations.ConversionsOfTheWorkedExamples := by
  unfold Obligations.ConversionsOfTheWorkedExamples
  decide +kernel

/-- Settles O48: the conversions evaluated. -/
theorem silentBusPassesTheCheck : Obligations.SilentBusPassesTheCheck := by
  unfold Obligations.SilentBusPassesTheCheck
  decide +kernel

end Sys2Proof.Machine
end

section
/-! PROOFS. Transactions on the successful path and their admission (42_sequencer.md R105 to R113). The rows that failure paths do not
take come first; a path is again the chain of its rows. -/

namespace Sys2Proof.Machine

/-! ## The rows of R106 on the successful path -/

/-- The frame passes its check (R90), and what it decodes to is converted. -/
theorem runSequencer_checkPassed {s : State} {rest : List Input} (hno : rest.head? ≠ some .hardwareReset)
    (hcrc : crc8 [s.raw.msb, s.raw.lsb] = s.raw.crc) (n : Nat) :
    runSequencer (n + 3) (inTransaction .check rest s) =
      runSequencer n (inTransaction .respond rest
        { s with
          crcAcc := crc8 [s.raw.msb, s.raw.lsb]
          d := decode16 s.raw.msb s.raw.lsb
          result := conversion s.cur.op (decode16 s.raw.msb s.raw.lsb) s.result
          status := .ok }) := by
  have hcheck : sequencerStep (inTransaction .check rest s) = some (phaseCheck (inTransaction .check rest s)) :=
    sequencerStep_of_no_reset hno
  have hdecode (t : State) : sequencerStep (inTransaction .decode rest t) = some (phaseDecode (inTransaction .decode rest t)) :=
    sequencerStep_of_no_reset hno
  have hconvert (t : State) : sequencerStep (inTransaction .convert rest t) = some (phaseConvert (inTransaction .convert rest t)) :=
    sequencerStep_of_no_reset hno
  rw [runSequencer_of_step hcheck, Safety.phaseCheck_of_match (by exact hcrc)]
  exact (runSequencer_of_step (hdecode { s with crcAcc := crc8 [s.raw.msb, s.raw.lsb] }) _).trans
    (runSequencer_of_step (hconvert _) _)

end Sys2Proof.Machine

namespace Sys2Proof.Safety

open Sys2Proof.Machine

section
variable {s : State} {op : GuardedOp} {extra : Nat} {rest : List Input}

/-- The end of the delay of an operation that reads nothing is its successful end; INIT has its handle (R109, R110). -/
theorem phaseDelay_of_settled (hop : readsFrame op = false) (opcode delayMs : Byte) :
    phaseDelay extra (inTransaction .delay rest (startDelay (emit (.writeAnswer .ok) (withCommandSent op opcode delayMs s)))) =
      inTransaction .respond rest
        { withDelayOver op opcode delayMs extra s with ready := s.ready || op.isInit, status := .ok } := by
  rw [phaseDelay_of_not_measures (by exact (readsFrame_eq_measures op).symm.trans hop)]
  rfl

theorem responseOf_of_settled {t : State} (hop : readsFrame t.cur.op = false) (hok : t.status = .ok) : responseOf t = .ok := by
  simp [responseOf, hok, ← readsFrame_eq_measures, hop]

theorem responseOf_of_measured {t : State} (hop : readsFrame t.cur.op = true) (hok : t.status = .ok) :
    responseOf t = .okValue t.result := by
  simp [responseOf, hok, ← readsFrame_eq_measures, hop]

/-- INIT and RESET, the write accepted and the delay over. -/
theorem exec_settled (hop : readsFrame op = false) (hadm : admissible op s) (hq : quietFor s)
    (hin : s.inputs = .grant s.issuer :: .writeAnswered .ok :: .wake extra :: rest) (hno : rest.head? ≠ some .hardwareReset) :
    exec op.toInstr s = .next (withResponse .ok rest
      { withDelayOver op (wireByte op) (BitVec.ofNat 8 (leastDelayMs op)) extra s with
        ready := s.ready || op.isInit
        status := .ok }) := by
  rw [exec_admitted hadm hq hin (by simp), runSequencer_writeAccepted, phaseDelay_of_settled hop,
    runSequencer_respond (by exact hq.idle) (by exact hq.free) hno, responseOf_of_settled (by exact hop) rfl]

/-- A measurement, its calls answered and the check passed, answers the value of its frame (R111 to R113). -/
theorem exec_measured {f : Sample} (hop : readsFrame op = true) (hr : s.ready = true) (hq : quietFor s)
    (hin : s.inputs = .grant s.issuer :: .writeAnswered .ok :: .wake extra :: .readAnswered (.ok f) :: rest)
    (hno : rest.head? ≠ some .hardwareReset) (hcrc : crc8 [f.msb, f.lsb] = f.crc) :
    exec op.toInstr s = .next (withResponse (.okValue (valueOf op f)) rest
      { withFrameRead op (wireByte op) (BitVec.ofNat 8 (leastDelayMs op)) extra f s with
        d := decode16 f.msb f.lsb
        result := valueOf op f
        status := .ok }) := by
  rw [exec_readCalled hop hr hq hin, runSequencer_frameRead, runSequencer_checkPassed hno (by exact hcrc),
    runSequencer_respond (by exact hq.idle) (by exact hq.free) hno, responseOf_of_measured (by exact hop) rfl,
    ← addrOf_of_readsFrame (s := s) hop, ← conversion_eq_valueOf hop f s.result]
  rfl

end

/-- The byte of an address with bit 7 clear is the address it carries (R63, R72). -/
theorem setWidth_addrOperand {addr : Byte} (h : addr.msb = false) : (addr.extractLsb' 0 7).setWidth 8 = addr := by
  have hlt := BitVec.msb_eq_false_iff_two_mul_lt.1 h
  apply BitVec.eq_of_toNat_eq
  simp only [BitVec.toNat_setWidth, BitVec.extractLsb'_toNat, Nat.shiftRight_zero]
  omega

/-- Settles O20: the settled path, where no handle stood before. -/
theorem initBindsTheAddressAndMakesReady : Obligations.InitBindsTheAddressAndMakesReady := by
  intro s addr extra rest hmsb hr hinit hq hin hno
  have hexec := exec_settled (op := .init (addr.extractLsb' 0 7)) rfl ⟨hr, hinit⟩ hq hin hno
  have hready : (s.ready || (GuardedOp.init (addr.extractLsb' 0 7)).isInit) = true := Bool.or_true _
  rwa [GuardedOp.toInstr, setWidth_addrOperand hmsb, hready] at hexec

/-- Settles O21: the settled path, with the handle that stood before. -/
theorem resetWritesWaitsAndReadsNothing : Obligations.ResetWritesWaitsAndReadsNothing := by
  intro s extra rest hr hq hin hno
  have hexec := exec_settled (op := .reset) rfl hr hq hin hno
  have hready : (s.ready || GuardedOp.isInit .reset) = s.ready := Bool.or_false _
  rwa [hready] at hexec

/-- Settles O22: the measured path, whose value is the Celsius pattern. -/
theorem celsiusReadingAnswersTheConvertedFrame : Obligations.CelsiusReadingAnswersTheConvertedFrame :=
  fun _ _ _ _ hr hq hin hno hcrc => exec_measured (op := .rdTempC) rfl hr hq hin hno hcrc

/-- Settles O23: the measured path of the other operation that triggers a temperature. -/
theorem fahrenheitReadingConvertsTheRoundedCelsius : Obligations.FahrenheitReadingConvertsTheRoundedCelsius :=
  fun _ _ _ _ hr hq hin hno hcrc => exec_measured (op := .rdTempF) rfl hr hq hin hno hcrc

/-- Settles O24: the measured path with the humidity trigger. -/
theorem humidityReadingAnswersTheConvertedFrame : Obligations.HumidityReadingAnswersTheConvertedFrame :=
  fun _ _ _ _ hr hq hin hno hcrc => exec_measured (op := .rdHum) rfl hr hq hin hno hcrc

/-! ## Waiting, before and after the admission -/

/-- Settles O53: LOOKUP, then WRITE, in which the sequencer has no step. -/
theorem admittedOperationsStartTheirWrite : Obligations.AdmittedOperationsStartTheirWrite := by
  intro s op rest hadm hq hin hanswer hno
  rw [exec_admitted hadm hq hin hno, runSequencer_of_none (sequencerStep_write_none rfl hanswer)]
  rfl

/-- An admissible operation is called wherever its requester has nothing outstanding, be the block IDLE or not. -/
theorem exec_of_not_outstanding {s : State} {op : GuardedOp} (hadm : admissible op s) (hout : outstanding s s.issuer = false) :
    exec op.toInstr s = .next (call op s) := by
  have hready (op' : GuardedOp) (hr : s.ready = true) : callReady op' s = .next (call op' s) := by simp [callReady, hr, hout]
  cases op with
  | init a =>
    obtain ⟨hr, hno⟩ := hadm
    have hmsb : (a.setWidth 8).msb = false := by simp [BitVec.msb_setWidth]
    simp [GuardedOp.toInstr, exec, execInit, hmsb, hr, hno, hout, addrOperand_setWidth]
  | reset | rdTempC | rdTempF | rdHum => exact hready _ hadm

/-- A call is not admitted while the guard is held or its next act is another (R22). -/
theorem call_waits {s : State} (op : GuardedOp) (hwait : ¬ (s.lock = .free ∧ ∃ rest, s.inputs = .grant s.issuer :: rest)) :
    call op s = { s with pend := s.pend.put s.issuer op } :=
  (call_cases op s).resolve_right fun ⟨hfree, rest, hin, _⟩ => hwait ⟨hfree, rest, hin⟩

/-- Settles O29: of the two things a call can do, admission is ruled out. -/
theorem requestWaitsForTheGuard : Obligations.RequestWaitsForTheGuard := by
  intro s op hadm hnone hlock hwait
  have hout : outstanding s s.issuer = false := by simp [outstanding, hnone, hlock]
  have hcall : call op s = { s with pend := s.pend.put s.issuer op } := by
    refine call_waits op fun ⟨hfree, rest, hin⟩ => ?_
    rcases hwait with ⟨other, hheld⟩ | hgrant
    · cases hfree.symm.trans hheld
    · exact hgrant (by rw [hin]; rfl)
  refine ⟨_, (exec_of_not_outstanding hadm hout).trans (congrArg _ hcall), rfl, ?_, fun who hne => ?_⟩
  · exact Pending.get_put_self _ _ _
  · exact Pending.get_put_other _ _ _ _ hne

/-- A block that waits takes the guard's choice of a requester with a pending request (R22). -/
theorem step_of_grant {s t : State} {who : Requester} {rest : List Input} (hw : s.phase.waits = true)
    (hin : s.inputs = .grant who :: rest) (hadmit : admission who (inputsLeft rest s) = some t) : step s = .next t := by
  simp [step, nextAct, nextInput, hw, hin, hadmit]

/-- Settles O30: the step is the admission. -/
theorem anyPendingRequestMayBeAdmitted : Obligations.AnyPendingRequestMayBeAdmitted := by
  intro s who op rest hidle hfree hin hget
  have hstep : step s = .next (acquire who op (inputsLeft rest s)) :=
    step_of_grant (by rw [hidle]; rfl) hin (admission_free hfree hget)
  refine ⟨_, hstep, rfl, ?_, fun other hne => ?_⟩
  · exact Pending.get_drop_self _ _
  · exact Pending.get_drop_other _ _ _ hne

end Sys2Proof.Safety
end

section
/-! PROOFS. The phase table step by step, and the sensor commands (42_sequencer.md R106; 41_command_table.md R96 to R100). A phase
of the block's own is one step; in WRITE the step is the loaded command, which runs on as long as the acts lined up are its own. -/

namespace Sys2Proof.Machine

/-! ## A command on the bus -/

theorem runCommand_of_none {s : State} (h : sequencerStep s = none) (n : Nat) : runCommand n s = s := by
  cases n <;> simp [runCommand, h]

theorem runCommand_of_offBus {s : State} (h : s.phase.onBus = false) (n : Nat) : runCommand n s = s := by
  cases n <;> simp [runCommand, h]

theorem runCommand_of_step {s t : State} (hbus : s.phase.onBus = true) (h : sequencerStep s = some t) (n : Nat) :
    runCommand (n + 1) s = runCommand n t := by
  simp [runCommand, hbus, h]

section
variable {s : State} {rest : List Input}

theorem sequencerStep_writeAnswered {a : WriteAnswer} (hp : s.phase = .write) (hin : s.inputs = .writeAnswered a :: rest) :
    sequencerStep s = some (phaseWrite a (inputsLeft rest s)) := by
  simp [sequencerStep_of_input hin, phaseStep, hp, hin]

theorem sequencerStep_wake {extra : Nat} (hp : s.phase = .delay) (hin : s.inputs = .wake extra :: rest) :
    sequencerStep s = some (phaseDelay extra (inputsLeft rest s)) := by
  simp [sequencerStep_of_input hin, phaseStep, hp, hin]

theorem sequencerStep_readAnswered {a : ReadAnswer} (hp : s.phase = .read) (hin : s.inputs = .readAnswered a :: rest) :
    sequencerStep s = some (phaseRead a (inputsLeft rest s)) := by
  simp [sequencerStep_of_input hin, phaseStep, hp, hin]

/-- The command is refused: it is off the bus at once (R114). -/
theorem runCommand_refused {e : TErr} (hp : s.phase = .write) (hin : s.inputs = .writeAnswered (.err e) :: rest) (n : Nat) :
    runCommand (n + 1) s = phaseWrite (.err e) (inputsLeft rest s) :=
  (runCommand_of_step (by rw [hp]; rfl) (sequencerStep_writeAnswered hp hin) n).trans (runCommand_of_offBus rfl n)

/-- The command is accepted, and its delay goes on. -/
theorem runCommand_accepted (hp : s.phase = .write) (hin : s.inputs = .writeAnswered .ok :: rest)
    (hrest : ∀ extra, rest.head? ≠ some (.wake extra)) (n : Nat) :
    runCommand (n + 1) s = phaseWrite .ok (inputsLeft rest s) :=
  (runCommand_of_step (by rw [hp]; rfl) (sequencerStep_writeAnswered hp hin) n).trans
    (runCommand_of_none (sequencerStep_delay_none rfl hrest) n)

/-- The command is accepted, and its delay comes to its end. -/
theorem runCommand_delayOver {extra : Nat} (hp : s.phase = .write) (hin : s.inputs = .writeAnswered .ok :: .wake extra :: rest)
    (n : Nat) :
    runCommand (n + 2) s = runCommand n (phaseDelay extra (inputsLeft rest (phaseWrite .ok (inputsLeft (.wake extra :: rest) s)))) :=
  (runCommand_of_step (by rw [hp]; rfl) (sequencerStep_writeAnswered hp hin) _).trans
    (runCommand_of_step rfl (sequencerStep_wake rfl rfl) n)

@[simp] theorem inputsLeft_inputsLeft (next : List Input) : inputsLeft rest (inputsLeft next s) = inputsLeft rest s := rfl

/-- A trigger whose write was accepted and whose delay is over: its read call is out (R97, R98). -/
def readCalled (extra : Nat) (s : State) : State := startRead (endDelay extra (startDelay (emit (.writeAnswer .ok) s)))

theorem runCommand_readCalled {extra : Nat} (hp : s.phase = .write) (hmeasures : s.cur.op.measures = true)
    (hin : s.inputs = .writeAnswered .ok :: .wake extra :: rest) (n : Nat) :
    runCommand (n + 2) s = runCommand n (inputsLeft rest (readCalled extra s)) := by
  rw [runCommand_delayOver hp hin, Safety.phaseDelay_of_measures (by exact hmeasures)]
  rfl

/-- Whatever the answer to its read, the command is off the bus with it. -/
theorem runCommand_readAnswered {a : ReadAnswer} (hp : s.phase = .read) (hin : s.inputs = .readAnswered a :: rest) (n : Nat) :
    runCommand (n + 1) s = phaseRead a (inputsLeft rest s) :=
  (runCommand_of_step (by rw [hp]; rfl) (sequencerStep_readAnswered hp hin) n).trans (runCommand_of_offBus (by cases a <;> rfl) n)

/-- The fields of the end with TransportError after a refused write (R114). -/
theorem phaseWrite_err (e : TErr) (s : State) :
    phaseWrite (.err e) s =
      { s with
        phase := .respond
        status := .transport
        errT := e
        trace := ⟨s.now, .writeAnswer (.err e)⟩ :: s.trace } := rfl

/-- The fields of the end with TransportError after a failed read; `RAW` and the counter are open (R115). -/
theorem phaseRead_err (e : TErr) (s : State) :
    phaseRead (.err e) s =
      { s with
        phase := .respond
        status := .transport
        errT := e
        raw := (phaseRead (.err e) s).raw
        draws := (phaseRead (.err e) s).draws
        trace := ⟨s.now, .readAnswer (.err e)⟩ :: s.trace } := rfl

/-! ## One step in each phase -/

/-- In a phase of the block's own the step is the sequencer's (R106). -/
theorem step_of_own_phase (hown : s.phase.waits = false) {t : State} (h : sequencerStep s = some t) : step s = .next t := by
  have hreset : resetNext s = false := by
    by_contra hc
    simp [sequencerStep_of_reset (eq_true_of_ne_false hc)] at h
  simp [step, nextAct, hown, hreset, h]

theorem step_of_wake {extra : Nat} (hp : s.phase = .delay) (hin : s.inputs = .wake extra :: rest) :
    step s = .next (phaseDelay extra (inputsLeft rest s)) := by
  simp [step, nextAct, nextInput, Phase.waits, hp, hin]

theorem step_of_readAnswered {a : ReadAnswer} (hp : s.phase = .read) (hin : s.inputs = .readAnswered a :: rest) :
    step s = .next (phaseRead a (inputsLeft rest s)) := by
  simp [step, nextAct, nextInput, Phase.waits, hp, hin]

theorem step_of_advance {us : Nat} (hw : s.phase.waits = true) (hin : s.inputs = .advance us :: rest) :
    step s = .next (passTime us (inputsLeft rest s)) := by
  simp [step, nextAct, nextInput, hw, hin]

theorem step_of_loaded_command {a : WriteAnswer} {i : Instr} (hp : s.phase = .write) (hin : s.inputs = .writeAnswered a :: rest)
    (hd : decodeCommand s.cmdOpc = some i) : step s = exec i s := by
  simp [step, nextAct, nextInput, Phase.waits, hp, hin, hd]

/-- A command that the sequencer has loaded is carried out (R106). -/
theorem carryOut_loaded {c : Selector} (hp : s.phase = .write) (hopc : s.cmdOpc = (cmdRom c).opcode) (hsel : s.cur.op.selector = c) :
    carryOut c s = .next (runCommand 3 s) := if_pos ⟨hp, hopc, hsel⟩

/-- The byte that an operation may write is decoded to the command that it selects, and that command is carried out (R68, R69). -/
theorem exec_wireByte (hp : s.phase = .write) (hopc : s.cmdOpc = Safety.wireByte s.cur.op) :
    ∃ i, decodeCommand s.cmdOpc = some i ∧ exec i s = .next (runCommand 3 s) := by
  have hrun := carryOut_loaded hp (hopc.trans (Safety.cmdRom_opcode_eq_wireByte _).symm) rfl
  rw [hopc]
  cases hop : s.cur.op <;> rw [hop] at hrun
  case init | reset => exact ⟨.softReset, rfl, hrun⟩
  case rdTempC | rdTempF => exact ⟨.trigTempNohold, rfl, hrun⟩
  case rdHum => exact ⟨.trigHumNohold, rfl, hrun⟩

theorem step_of_writeAnswered {a : WriteAnswer} (hp : s.phase = .write) (hopc : s.cmdOpc = Safety.wireByte s.cur.op)
    (hin : s.inputs = .writeAnswered a :: rest) : step s = .next (runCommand 3 s) := by
  obtain ⟨i, hd, hrun⟩ := exec_wireByte hp hopc
  exact (step_of_loaded_command hp hin hd).trans hrun

end

/-- Settles O6: a block that waits takes the frame and runs what it decodes to. -/
theorem stepRunsTheDecodedRequest : Obligations.StepRunsTheDecodedRequest := fun _ _ _ _ _ hw hin hd => step_of_request hw hin hd

/-- Settles O7: in WRITE an answer runs what `CMD_OPC` decodes to. -/
theorem stepRunsTheLoadedCommand : Obligations.StepRunsTheLoadedCommand := fun _ _ _ _ hp hin hd => step_of_loaded_command hp hin hd

/-! ## The sensor commands -/

/-- Settles O33: WRITE refused, whichever command is loaded. -/
theorem refusedCommandEndsTheOperation : Obligations.RefusedCommandEndsTheOperation := by
  intro s e rest i sel hp hmem hopc hsel hin
  have hrun : carryOut sel s = .next (phaseWrite (.err e) (inputsLeft rest s)) :=
    (carryOut_loaded hp hopc hsel).trans (congrArg _ (runCommand_refused hp hin 2))
  rw [phaseWrite_err] at hrun
  fin_cases hmem <;> exact hrun

/-- Settles O34: exec refuses both in every state. -/
theorem registerCommandsAreNeverIssued : Obligations.RegisterCommandsAreNeverIssued := fun _ => ⟨rfl, rfl⟩

/-- Only SOFT_RESET belongs to operations that read nothing (R106). -/
theorem measures_iff_selector (op : GuardedOp) : op.measures = true ↔ op.selector ≠ .softReset := by
  cases op <;> simp [GuardedOp.measures, GuardedOp.selector]

/-- Settles O31: WRITE accepted, then DELAY where its end is next, with no read after it. -/
theorem softResetWaitsAndReadsNothing : Obligations.SoftResetWaitsAndReadsNothing := by
  intro s rest hp hopc hdly hsel
  have hrun : exec .softReset s = .next (runCommand 3 s) := carryOut_loaded (c := .softReset) hp hopc hsel
  have hmeasures : s.cur.op.measures = false := by simpa [hsel] using (measures_iff_selector s.cur.op).not
  refine ⟨fun hin hrest => ?_, fun extra hin => ?_⟩
  · rw [hrun, runCommand_accepted hp hin hrest]
    simp [phaseWrite, startDelay, goto, emit, inputsLeft, Config.usPerMs, hdly]
  · rw [hrun, runCommand_delayOver hp hin, Safety.phaseDelay_of_not_measures (by exact hmeasures), runCommand_of_offBus rfl]
    simp [endWith, recordEnding, endDelay, phaseWrite, startDelay, goto, emit, inputsLeft, Config.usPerMs, hdly]

/-- Settles O32: WRITE accepted, then DELAY and READ as far as their acts are next. -/
theorem triggersWaitAndReadTheFrame : Obligations.TriggersWaitAndReadTheFrame := by
  intro s rest i sel opcode delayMs hmem hp hopc hdly hsel
  obtain ⟨hrun, htrigger⟩ : exec i s = .next (runCommand 3 s) ∧ sel ≠ .softReset := by
    simp only [List.mem_cons, Prod.mk.injEq, List.not_mem_nil, or_false] at hmem
    rcases hmem with ⟨rfl, rfl, rfl, -⟩ | ⟨rfl, rfl, rfl, -⟩
    · exact ⟨carryOut_loaded (c := .trigTempNohold) hp hopc hsel, nofun⟩
    · exact ⟨carryOut_loaded (c := .trigHumNohold) hp hopc hsel, nofun⟩
  have hmeasures : s.cur.op.measures = true := (measures_iff_selector _).2 (hsel ▸ htrigger)
  subst hdly
  intro accepted readOut
  have hread (extra : Nat) : readCalled extra s = readOut extra := rfl
  clear_value readOut
  have hanswered {extra : Nat} {a : ReadAnswer} (hin : s.inputs = .writeAnswered .ok :: .wake extra :: .readAnswered a :: rest) :
      runCommand 3 s = phaseRead a (inputsLeft rest (readOut extra)) := by
    rw [← hread, runCommand_readCalled hp hmeasures hin, runCommand_readAnswered (s := inputsLeft _ (readCalled extra s)) rfl rfl,
      inputsLeft_inputsLeft]
  rw [hrun]
  refine ⟨fun hin hrest => ?_, fun extra hin hrest => ?_, fun extra f hin => ?_, fun extra e hin => ?_⟩
  · rw [runCommand_accepted hp hin hrest]
    rfl
  · rw [runCommand_readCalled hp hmeasures hin, runCommand_of_none (sequencerStep_read_none rfl hrest), hread]
    rfl
  · rw [hanswered hin]
    rfl
  · exact ⟨_, congrArg _ (hanswered hin), phaseRead_err e _⟩

/-! ## The phase table -/

/-- Settles O35: each phase of the block's own is its row of the table. -/
theorem ownPhasesFollowTheTable : Obligations.OwnPhasesFollowTheTable := by
  intro s hno
  have hown {p : Phase} {t : State} (hp : s.phase = p) (hw : p.waits = false) (h : phaseStep s = some t) : step s = .next t :=
    step_of_own_phase (hp ▸ hw) ((sequencerStep_of_no_reset hno).trans h)
  refine ⟨fun hp => ?_, fun hp hcrc => ?_, fun hp hcrc => ?_, fun hp => ?_, fun hp x hx hop => ?_, fun hp => ?_⟩
  · have hrow : phaseStep s = some (phaseLookup s) := by simp [phaseStep, hp]
    rw [hown hp rfl hrow]
    unfold phaseLookup Safety.addrOf
    cases s.cur.op <;> rfl
  · have hrow : phaseStep s = some (phaseCheck s) := by simp [phaseStep, hp]
    rw [hown hp rfl hrow, Safety.phaseCheck_of_match hcrc, hcrc]
    rfl
  · have hrow : phaseStep s = some (phaseCheck s) := by simp [phaseStep, hp]
    rw [hown hp rfl hrow, Safety.phaseCheck_of_mismatch hcrc]
    rfl
  · exact hown hp rfl (by simp [phaseStep, hp]; rfl)
  · have hrow : phaseStep s = some (phaseConvert s) := by simp [phaseStep, hp]
    rw [hown hp rfl hrow]
    fin_cases hx <;> simp only [phaseConvert, hop] <;> rfl
  · exact hown hp rfl (by simp [phaseStep, hp]; rfl)

/-- Settles O54: WRITE by the loaded command, DELAY and READ by their rows, and time. -/
theorem waitingPhasesFollowTheTable : Obligations.WaitingPhasesFollowTheTable := by
  intro s rest
  refine ⟨fun hp hopc hin hrest => ?_, fun e hp hopc hin => ?_, fun extra hp hreads hin => ?_, fun extra hp hreads hin => ?_,
    fun f hp hin => step_of_readAnswered hp hin, fun e hp hin => ⟨_, step_of_readAnswered hp hin, phaseRead_err e _⟩,
    fun us hw hin => step_of_advance hw hin⟩
  · rw [step_of_writeAnswered hp hopc hin, runCommand_accepted hp hin hrest]
    rfl
  · rw [step_of_writeAnswered hp hopc hin, runCommand_refused hp hin, phaseWrite_err]
    rfl
  · rw [Safety.readsFrame_eq_measures] at hreads
    rw [step_of_wake hp hin, Safety.phaseDelay_of_measures (by exact hreads)]
    rfl
  · rw [Safety.readsFrame_eq_measures] at hreads
    rw [step_of_wake hp hin, Safety.phaseDelay_of_not_measures (by exact hreads)]
    rfl

end Sys2Proof.Machine
end

section
/-! PROOFS. What a step can do to the guard, the timer, the address and the bus (10_state.md R18 to R20; 60_exceptions.md R157;
70_reset_and_hazards.md R174, R175). What a row of R106 leaves is said once for all of them; then what the block does while the
guard is held. -/

namespace Sys2Proof.Machine

/-- How many rows of R106 a transaction in this phase has before it at most. -/
def Phase.stepsLeft : Phase → Nat
  | .idle => 0
  | .respond => 1
  | .convert => 2
  | .decode => 3
  | .check => 4
  | .read => 5
  | .delay => 6
  | .write => 7
  | .lookup => 8

theorem Phase.stepsLeft_le (p : Phase) : p.stepsLeft ≤ 8 := by cases p <;> decide

/-- A write call is of one of the three bytes, a read call of three bytes, to an address with bit 7 clear (R46, R47, R69). -/
def Observed.LegalOnBus (o : Observed) : Prop :=
  (∀ a bytes, o.event = .writeCall a bytes → a.msb = false ∧ bytes ∈ [[0xFE#8], [0xF3#8], [0xF5#8]]) ∧
  (∀ a n, o.event = .readCall a n → a.msb = false ∧ n = 3)

/-- What is seen has grown by what is legal on the bus. -/
def GrowsLegally (old seen : List Observed) : Prop :=
  ∃ new : List Observed, seen = new ++ old ∧ ∀ o ∈ new, o.LegalOnBus

theorem GrowsLegally.refl (old : List Observed) : GrowsLegally old old := ⟨[], rfl, nofun⟩

theorem GrowsLegally.cons {old seen : List Observed} (h : GrowsLegally old seen) {o : Observed} (ho : o.LegalOnBus) :
    GrowsLegally old (o :: seen) := by
  obtain ⟨new, rfl, hnew⟩ := h
  exact ⟨o :: new, rfl, List.forall_mem_cons.2 ⟨ho, hnew⟩⟩

theorem GrowsLegally.trans {old seen more : List Observed} (h : GrowsLegally old seen) (h' : GrowsLegally seen more) :
    GrowsLegally old more := by
  obtain ⟨new, rfl, hnew⟩ := h
  obtain ⟨new', rfl, hnew'⟩ := h'
  exact ⟨new' ++ new, (List.append_assoc _ _ _).symm, List.forall_mem_append.2 ⟨hnew', hnew⟩⟩

theorem GrowsLegally.once (old : List Observed) {o : Observed} (ho : o.LegalOnBus) : GrowsLegally old (o :: old) :=
  (GrowsLegally.refl old).cons ho

/-- What every row of R106 does between `s` and `t`. Where a row says nothing of a field, it goes on in the table and leaves guard,
timer, clock, address and trace alone. -/
structure IsRow (s t : State) : Prop where
  goesOn : t.phase.stepsLeft < s.phase.stepsLeft := by rw [‹s.phase = _›]; exact of_decide_eq_true rfl
  cur : t.cur = s.cur := by rfl
  guard : (t.lock = s.lock ∧ t.phase ≠ .idle) ∨ (t.lock = .free ∧ t.phase = .idle) := by exact .inl ⟨rfl, nofun⟩
  timer : t.phase ≠ .delay → t.timer = 0 ∨ (t.timer = s.timer ∧ s.phase ≠ .delay) := by
    exact fun _ => .inr ⟨rfl, by simp [*]⟩
  clock : s.now ≤ t.now := by exact le_rfl
  delayOver : s.phase = .delay → s.now + s.timer ≤ t.now := by simp [*]
  delayLoaded : t.phase = .delay → t.now + t.timer = s.now + s.cmdDly.toNat * 1000 := by exact nofun
  address : t.devAddr = s.devAddr ∨ t.cur.op = .init t.devAddr := by exact .inl rfl
  seen : GrowsLegally s.trace t.trace := by exact .refl _

section
variable {s t : State}

theorem busAddr_msb (a : DevAddr) : (busAddr a).msb = false := by simp [busAddr, BitVec.msb_setWidth]

theorem IsRow.lookup (hp : s.phase = .lookup) : IsRow s (phaseLookup s) where
  address := by
    unfold phaseLookup
    cases hop : s.cur.op with
    | init a => exact .inr hop
    | reset | rdTempC | rdTempF | rdHum => exact .inl rfl
  seen := by
    refine .once _ ⟨fun a bytes h => ?_, nofun⟩
    cases h
    refine ⟨busAddr_msb _, ?_⟩
    change [(cmdRom s.cur.op.selector).opcode] ∈ _
    cases s.cur.op <;> simp [GuardedOp.selector, cmdRom]

theorem IsRow.write (hp : s.phase = .write) (a : WriteAnswer) (rest : List Input) : IsRow s (phaseWrite a (inputsLeft rest s)) := by
  have hseen : GrowsLegally s.trace (⟨s.now, .writeAnswer a⟩ :: s.trace) := .once _ ⟨nofun, nofun⟩
  cases a with
  | ok => exact { timer := fun h => absurd rfl h, delayLoaded := fun _ => rfl, seen := hseen }
  | err e => exact { seen := hseen }

theorem IsRow.delay (hp : s.phase = .delay) (extra : Nat) (rest : List Input) : IsRow s (phaseDelay extra (inputsLeft rest s)) := by
  have hnow : s.now + s.timer ≤ s.now + (s.timer + extra) := by omega
  cases hm : s.cur.op.measures with
  | true =>
    rw [Safety.phaseDelay_of_measures (by exact hm)]
    have hcall : Observed.LegalOnBus ⟨s.now + (s.timer + extra), .readCall (busAddr s.devAddr) 3⟩ :=
      ⟨nofun, fun a n h => by cases h; exact ⟨busAddr_msb _, rfl⟩⟩
    exact { timer := fun _ => .inl rfl, clock := Nat.le_add_right _ _, delayOver := fun _ => hnow, seen := .once _ hcall }
  | false =>
    rw [Safety.phaseDelay_of_not_measures (by exact hm)]
    exact { timer := fun _ => .inl rfl, clock := Nat.le_add_right _ _, delayOver := fun _ => hnow }

theorem IsRow.read (hp : s.phase = .read) (a : ReadAnswer) (rest : List Input) : IsRow s (phaseRead a (inputsLeft rest s)) := by
  have hseen : GrowsLegally s.trace (⟨s.now, .readAnswer a⟩ :: s.trace) := .once _ ⟨nofun, nofun⟩
  cases a with
  | ok f => exact { seen := hseen }
  | err e => exact { seen := hseen }

theorem IsRow.check (hp : s.phase = .check) : IsRow s (phaseCheck s) := by
  by_cases hcrc : crc8 [s.raw.msb, s.raw.lsb] = s.raw.crc
  · rw [Safety.phaseCheck_of_match hcrc]
    exact {}
  · rw [Safety.phaseCheck_of_mismatch hcrc]
    exact {}

/-- Every step of the sequencer is a row of the table. -/
theorem isRow_of_sequencerStep (h : sequencerStep s = some t) : IsRow s t := by
  rcases sequencerStep_cases h with ⟨hp, rfl⟩ | ⟨hp, a, rest, _, rfl⟩ | ⟨hp, extra, rest, _, rfl⟩ | ⟨hp, a, rest, _, rfl⟩ | ⟨hp, rfl⟩ |
    ⟨hp, rfl⟩ | ⟨hp, rfl⟩ | ⟨hp, rfl⟩
  · exact .lookup hp
  · exact .write hp a rest
  · exact .delay hp extra rest
  · exact .read hp a rest
  · exact .check hp
  · exact {}
  · exact {}
  · exact { guard := .inr ⟨rfl, rfl⟩, seen := .once _ ⟨nofun, nofun⟩ }

/-! ## The length of a transaction -/

/-- Without a step left to the sequencer the block waits, or a hardware reset comes first. -/
theorem waits_of_sequencerStep_none (h : sequencerStep s = none) : s.phase.waits = true ∨ s.inputs.head? = some .hardwareReset := by
  refine or_iff_not_imp_right.2 fun hno => ?_
  rw [sequencerStep_of_no_reset hno] at h
  cases hp : s.phase with
  | idle | write | delay | read => rfl
  | lookup | check | decode | convert | respond => simp [phaseStep, hp] at h

theorem sequencerStep_runSequencer {n : Nat} (h : s.phase.stepsLeft ≤ n) : sequencerStep (runSequencer n s) = none := by
  induction n generalizing s with
  | zero =>
    refine Option.eq_none_iff_forall_ne_some.2 fun t hs => ?_
    have hlt := (isRow_of_sequencerStep (s := s) hs).goesOn
    omega
  | succ n ih =>
    cases hs : sequencerStep s with
    | none => rwa [runSequencer_of_none hs]
    | some t =>
      have hlt := (isRow_of_sequencerStep hs).goesOn
      rw [runSequencer_of_step hs]
      exact ih (by omega)

/-- Settles O36: each step of the sequencer goes on in the table, which has eight rows after the admission. -/
theorem transactionsEndAfterAtMostEightSteps : Obligations.TransactionsEndAfterAtMostEightSteps := by
  intro s
  have hend : sequencerStep (runTransaction s) = none := sequencerStep_runSequencer s.phase.stepsLeft_le
  exact ⟨hend, waits_of_sequencerStep_none hend⟩

end

end Sys2Proof.Machine

namespace Sys2Proof.Safety

open Sys2Proof.Machine

/-! ## The address, the bus, and the invariant of guard and timer -/

theorem leadsTo_address (a : DevAddr) : LeadsTo (fun s => s.devAddr = a) (fun s => s.devAddr = a ∨ s.cur.op = .init s.devAddr) where
  enter h := .inl h
  port _ _ h := h
  left _ h := h
  put h _ _ := h
  acquire h _ _ := h
  pure _ h := h
  time _ h := h
  sequencer hs h := by
    have row := isRow_of_sequencerStep h
    rcases row.address with heq | hinit
    · rwa [heq, row.cur]
    · exact .inr hinit

/-- Settles O42: up to the sequencer a step leaves the address alone, and the sequencer writes it in the LOOKUP of an INIT only. -/
theorem addressIsWrittenOnlyByInit : Obligations.AddressIsWrittenOnlyByInit := fun s _ h hno =>
  (leadsTo_address s.devAddr).step rfl (fun rest hin => absurd (by rw [hin]; rfl) hno) h

/-- Settles O43: each move adds to what has been seen only what is legal, the calls in the rows of R106. -/
theorem onlyThreeCommandBytesReachTheBus : Obligations.OnlyThreeCommandBytesReachTheBus := by
  intro s t h
  exact step_keeps (P := fun u => GrowsLegally s.trace u.trace)
    (hseq := fun _ _ hs hseq => hs.trans (isRow_of_sequencerStep hseq).seen)
    (hport := fun _ _ _ hs => hs)
    (hleft := fun _ _ hs => hs)
    (hput := fun _ _ hs => hs)
    (hacq := fun _ _ _ hs _ => hs.cons ⟨nofun, nofun⟩)
    (hpure := fun _ _ hs => hs.cons ⟨nofun, nofun⟩)
    (htime := fun _ _ hs => hs)
    (hreset := fun _ _ hs => hs.cons ⟨nofun, nofun⟩) (.refl _) h

/-- The guard and the timer keep their place. -/
structure InPlace (s : State) : Prop where
  guard : guardFits s
  timer : s.phase ≠ .delay → s.timer = 0

theorem InPlace.sequencerStep {s t : State} (hs : InPlace s) (h : sequencerStep s = some t) : InPlace t := by
  have row := isRow_of_sequencerStep h
  refine ⟨?_, fun hp => ?_⟩
  · rcases row.guard with ⟨hlock, hp⟩ | ⟨hlock, hp⟩
    · cases hl : s.lock with
      | free =>
        have hidle : s.phase = .idle := by simpa [guardFits, hl] using hs.guard
        simp [sequencerStep_idle hidle] at h
      | held who =>
        obtain ⟨-, hwho⟩ : s.phase ≠ .idle ∧ s.cur.who = who := by simpa only [guardFits, hl] using hs.guard
        rw [guardFits, hlock, hl, row.cur]
        exact ⟨hp, hwho⟩
    · rw [guardFits, hlock]
      exact hp
  · rcases row.timer hp with hzero | ⟨hkept, hs'⟩
    · exact hzero
    · rw [hkept, hs.timer hs']

theorem leadsTo_inPlace : LeadsTo InPlace InPlace where
  enter h := h
  port _ _ h := ⟨h.guard, h.timer⟩
  left _ h := ⟨h.guard, h.timer⟩
  put h _ _ := ⟨h.guard, h.timer⟩
  acquire {s _ _} h hfree _ := by
    have hidle : s.phase = .idle := by simpa [guardFits, hfree] using h.guard
    exact ⟨⟨nofun, rfl⟩, fun _ => h.timer (by simp [hidle])⟩
  pure _ h := ⟨h.guard, h.timer⟩
  time us h := ⟨h.guard, fun hp => by simp [h.timer hp]⟩
  sequencer h hstep := h.sequencerStep hstep

/-- Settles O50: each move keeps both, and so does the hardware reset. -/
theorem guardAndTimerKeepTheirPlace : Obligations.GuardAndTimerKeepTheirPlace := by
  intro s t hguard htimer h
  have ht : InPlace t := leadsTo_inPlace.step ⟨hguard, htimer⟩ (fun _ _ => ⟨rfl, fun _ => rfl⟩) h
  exact ⟨ht.guard, ht.timer⟩

/-! ## While the guard is held -/

/-- The block stays where it is: no call is made or answered, and the moment the timer runs out comes no nearer. -/
structure StaysPut (s t : State) : Prop where
  phase : t.phase = s.phase := by rfl
  lock : t.lock = s.lock := by rfl
  cur : t.cur = s.cur := by rfl
  clock : s.now + s.timer ≤ t.now + t.timer := by exact le_rfl
  bus : busEvents t.trace = busEvents s.trace := by rfl

section
variable {s t : State} {i : Instr}

theorem isHost_of_guarded {op : GuardedOp} (h : i.guarded = some op) : i.isHost = true := by
  cases i with
  | init _ | reset | rdTempC | rdTempF | rdHum => rfl
  | crcValidate _ _ | cmdLookup _ | softReset | trigTempNohold | trigHumNohold | readUserReg | writeUserReg => cases h

/-- A host operation that is taken while the guard is held waits for it, or is answered and needs none (R105, R121). -/
theorem exec_host_while_held {who : Requester} {rest : List Input} (hhost : i.isHost = true) (hheld : s.lock ≠ .free)
    (h : exec i (atPort who rest s) = .next t) : StaysPut s t := by
  rcases exec_cases h with ⟨op, _, rfl, _⟩ | ⟨_, _, r, rfl⟩ | ⟨hcommand, _⟩
  · rcases call_cases op (atPort who rest s) with hcall | ⟨hfree, _⟩
    · rw [hcall]
      exact {}
    · exact absurd hfree hheld
  · exact {}
  · simp [hhost] at hcommand

/-- A command byte is no host operation, so what runs on an answer in WRITE is the rest of the command. -/
theorem exec_loaded_command {b : Byte} (hd : decodeCommand b = some i) (h : exec i s = .next t) : t = runCommand 3 s := by
  have hcommand : i.isHost = false := (decodeCommandWith_eq_some hd).1
  rcases exec_cases h with ⟨op, hop, _⟩ | ⟨hhost, _⟩ | ⟨_, _, ht⟩
  · simp [isHost_of_guarded hop] at hcommand
  · simp [hhost] at hcommand
  · exact ht

/-- While the guard is held and no hardware reset comes, a step leaves the transaction where it is, or it is the sequencer's own, or in
WRITE the command's. -/
theorem step_while_held (h : step s = .next t) (hheld : s.lock ≠ .free) (hno : s.inputs.head? ≠ some .hardwareReset) :
    StaysPut s t ∨ sequencerStep s = some t ∨
      (s.phase = .write ∧ (∃ a, s.inputs.head? = some (.writeAnswered a)) ∧ t = runCommand 3 s) := by
  rcases step_cases h with ⟨_, _, hseq | ⟨_, rfl⟩⟩ | ⟨_, ⟨_, rfl⟩ | ⟨who, _, rest, _, _, hd, hex⟩ | ⟨who, rest, _, hadm⟩ |
    ⟨a, _, _, hin, hp, hd, hex⟩ | ⟨_, _, _, _, hseq⟩ | ⟨_, _, _, _, hseq⟩ | ⟨us, rest, _, rfl⟩ | ⟨rest, hin, rfl⟩⟩
  · exact .inr (.inl hseq)
  · exact .inl {}
  · exact .inl {}
  · exact .inl (exec_host_while_held (decodeRequest_eq_ok (decodeFrame_ok hd).2).1 hheld hex)
  · exact absurd (admission_some hadm).1 hheld
  · exact .inr (.inr ⟨hp, ⟨a, by rw [hin]; rfl⟩, exec_loaded_command hd hex⟩)
  · exact .inr (.inl hseq)
  · exact .inr (.inl hseq)
  · have hclock : s.now + s.timer ≤ s.now + us + (s.timer - us) := by omega
    exact .inl { clock := hclock }
  · exact absurd (by rw [hin]; rfl) hno

/-- A transaction past WRITE: beyond DELAY, or in DELAY with the timer running out at this moment. -/
def DelayEndsAt (moment : Nat) (s : State) : Prop :=
  s.phase.stepsLeft < 6 ∨ (s.phase = .delay ∧ s.now + s.timer = moment)

theorem delayEndsAt_of_write (hp : s.phase = .write) (h : sequencerStep s = some t) :
    DelayEndsAt (s.now + s.cmdDly.toNat * 1000) t := by
  have row := isRow_of_sequencerStep h
  have hle : t.phase.stepsLeft < 7 := by
    have hgoes := row.goesOn
    rw [hp] at hgoes
    exact hgoes
  rcases Nat.lt_or_eq_of_le (Nat.le_of_lt_succ hle) with hlt | heq
  · exact .inl hlt
  · have hdelay : t.phase = .delay := by
      cases hq : t.phase <;> simp [hq, Phase.stepsLeft] at heq ⊢
    exact .inr ⟨hdelay, row.delayLoaded hdelay⟩

theorem DelayEndsAt.sequencerStep {moment : Nat} (hs : DelayEndsAt moment s) (h : sequencerStep s = some t) :
    DelayEndsAt moment t := by
  have hlt := (isRow_of_sequencerStep h).goesOn
  rcases hs with hs | ⟨hp, -⟩
  · exact .inl (hlt.trans hs)
  · rw [hp] at hlt
    exact .inl hlt

/-- A command that is carried out leaves WRITE; if it stands in DELAY then, its delay has just been loaded. -/
theorem runCommand_delayLoaded (hp : s.phase = .write) (hdelay : (runCommand 3 s).phase = .delay) :
    (runCommand 3 s).now + (runCommand 3 s).timer = s.now + s.cmdDly.toNat * 1000 := by
  cases hs : sequencerStep s with
  | none =>
    rw [runCommand_of_none hs, hp] at hdelay
    cases hdelay
  | some u =>
    rw [runCommand_of_step (by rw [hp]; rfl) hs] at hdelay ⊢
    have hends := runCommand_keeps (fun _ _ hv => hv.sequencerStep) 2 u (delayEndsAt_of_write hp hs)
    rcases hends with hlt | ⟨_, hmoment⟩
    · rw [hdelay] at hlt
      exact absurd hlt (by decide)
    · exact hmoment

end

/-- Settles O37: what time takes from the timer it adds to the clock, and the delay ends when the timer has run out. -/
theorem delayIsNeverShort : Obligations.DelayIsNeverShort := by
  rintro s t h ⟨who, hlock⟩ hno
  rcases step_while_held h (by simp [hlock]) hno with stays | hseq | ⟨hp, _, rfl⟩
  · refine ⟨fun hp => .inl ⟨stays.phase.trans hp, stays.clock⟩, fun hp hdelay => ?_⟩
    cases (stays.phase.trans hp).symm.trans hdelay
  · have row := isRow_of_sequencerStep hseq
    exact ⟨fun hp => .inr (row.delayOver hp), fun _ => row.delayLoaded⟩
  · exact ⟨fun hp' => by simp [hp] at hp', fun hp => runCommand_delayLoaded hp⟩

/-- Settles O38: without an answer to its call the sequencer has no step, and the command does not run. -/
theorem silentTransportHoldsTheGuard : Obligations.SilentTransportHoldsTheGuard := by
  rintro s t h hp ⟨who, hlock⟩ hwrite hread hno
  have hnone : sequencerStep s = none := by
    rcases hp with hp | hp
    · exact sequencerStep_write_none hp hwrite
    · exact sequencerStep_read_none hp hread
  rcases step_while_held h (by simp [hlock]) hno with stays | hseq | ⟨_, ⟨a, hanswer⟩, _⟩
  · exact ⟨stays.phase, stays.lock, stays.cur, stays.bus⟩
  · simp [hnone] at hseq
  · exact absurd hanswer (hwrite a)

end Sys2Proof.Safety
end

section
/-! PROOFS. Renaming of transport errors (60_exceptions.md R143). Each move of the block commutes with the renaming, since none looks
at an error. -/

namespace Sys2Proof.Safety

open Sys2Proof.Machine

section
variable (f : TErr → TErr) (s : State)

/-! ## The sequencer -/

theorem renameErrors_inputs {x : Input} {rest : List Input} {s : State} (hin : s.inputs = x :: rest) :
    (renameErrors f s).inputs = Input.mapErr f x :: rest.map (Input.mapErr f) := by
  simp [renameErrors, hin]

theorem inputsLeft_renameErrors (rest : List Input) :
    inputsLeft (rest.map (Input.mapErr f)) (renameErrors f s) = renameErrors f (inputsLeft rest s) := rfl

theorem resetNext_renameErrors : resetNext (renameErrors f s) = resetNext s := by
  cases hin : s.inputs with
  | nil => simp [resetNext, renameErrors, hin]
  | cons x rest => cases x <;> simp [resetNext, renameErrors, Input.mapErr, hin]

theorem phaseWrite_renameErrors (a : WriteAnswer) :
    phaseWrite (WriteAnswer.mapErr f a) (renameErrors f s) = renameErrors f (phaseWrite a s) := by
  cases a <;> rfl

theorem phaseDelay_renameErrors (extra : Nat) : phaseDelay extra (renameErrors f s) = renameErrors f (phaseDelay extra s) := by
  cases hm : s.cur.op.measures with
  | true => rw [phaseDelay_of_measures hm, phaseDelay_of_measures (by exact hm)]; rfl
  | false => rw [phaseDelay_of_not_measures hm, phaseDelay_of_not_measures (by exact hm)]; rfl

theorem phaseRead_renameErrors (a : ReadAnswer) :
    phaseRead (ReadAnswer.mapErr f a) (renameErrors f s) = renameErrors f (phaseRead a s) := by
  cases a <;> rfl

theorem phaseCheck_renameErrors : phaseCheck (renameErrors f s) = renameErrors f (phaseCheck s) := by
  by_cases hcrc : crc8 [s.raw.msb, s.raw.lsb] = s.raw.crc
  · rw [phaseCheck_of_match hcrc, phaseCheck_of_match (by exact hcrc)]; rfl
  · rw [phaseCheck_of_mismatch hcrc, phaseCheck_of_mismatch (by exact hcrc)]; rfl

theorem responseOf_renameErrors : responseOf (renameErrors f s) = Response.mapErr f (responseOf s) := by
  cases hs : s.status with
  | ok => cases hm : s.cur.op.measures <;> simp [responseOf, renameErrors, hs, hm, Response.mapErr]
  | transport => simp [responseOf, renameErrors, hs, Response.mapErr]
  | checksum => simp [responseOf, renameErrors, hs, Response.mapErr]

theorem respond_renameErrors : respond (renameErrors f s) = renameErrors f (respond s) := by
  unfold respond
  rw [responseOf_renameErrors]
  rfl

/-- The rows of R106 do the same under other names. -/
theorem phaseStep_renameErrors : phaseStep (renameErrors f s) = (phaseStep s).map (renameErrors f) := by
  have hphase : (renameErrors f s).phase = s.phase := rfl
  cases hp : s.phase with
  | idle => simp [phaseStep, hphase, hp]
  | lookup => simp [phaseStep, hphase, hp]; rfl
  | write | delay | read =>
    cases hin : s.inputs with
    | nil => simp [phaseStep, hp, hin, renameErrors]
    | cons x rest =>
      cases x <;> simp [phaseStep, hphase, hp, hin, renameErrors_inputs f hin, Input.mapErr, inputsLeft_renameErrors,
        phaseWrite_renameErrors, phaseDelay_renameErrors, phaseRead_renameErrors]
  | check => simp [phaseStep, hphase, hp, phaseCheck_renameErrors]
  | decode => simp [phaseStep, hphase, hp]; rfl
  | convert => simp [phaseStep, hphase, hp]; rfl
  | respond => simp [phaseStep, hphase, hp, respond_renameErrors]

theorem sequencerStep_renameErrors : sequencerStep (renameErrors f s) = (sequencerStep s).map (renameErrors f) := by
  unfold sequencerStep
  rw [resetNext_renameErrors, phaseStep_renameErrors]
  split <;> rfl

theorem runSequencer_renameErrors (n : Nat) : runSequencer n (renameErrors f s) = renameErrors f (runSequencer n s) := by
  induction n generalizing s with
  | zero => rfl
  | succ n ih =>
    have hstep := sequencerStep_renameErrors f s
    cases hs : sequencerStep s with
    | none =>
      rw [hs] at hstep
      rw [runSequencer_of_none hs, runSequencer_of_none hstep]
    | some t =>
      rw [hs] at hstep
      rw [runSequencer_of_step hs, runSequencer_of_step hstep, ih]

theorem runCommand_renameErrors (n : Nat) : runCommand n (renameErrors f s) = renameErrors f (runCommand n s) := by
  induction n generalizing s with
  | zero => rfl
  | succ n ih =>
    cases hbus : s.phase.onBus with
    | false => rw [runCommand_of_offBus hbus, runCommand_of_offBus (by exact hbus)]
    | true =>
      have hstep := sequencerStep_renameErrors f s
      cases hs : sequencerStep s with
      | none =>
        rw [hs] at hstep
        rw [runCommand_of_none hs, runCommand_of_none hstep]
      | some t =>
        rw [hs] at hstep
        rw [runCommand_of_step hbus hs, runCommand_of_step (by exact hbus) hstep, ih]

/-! ## The guard and the instructions -/

theorem admission_renameErrors {who : Requester} {s t : State} (h : admission who s = some t) :
    admission who (renameErrors f s) = some (renameErrors f t) := by
  obtain ⟨hfree, op, hget, rfl⟩ := admission_some h
  exact admission_free (s := renameErrors f s) hfree hget

theorem renameErrors_grant_iff {who : Requester} :
    (∃ rest, (renameErrors f s).inputs = .grant who :: rest) ↔ ∃ rest, s.inputs = .grant who :: rest := by
  cases hin : s.inputs with
  | nil => simp [renameErrors, hin]
  | cons x rest => cases x <;> simp [renameErrors, hin, Input.mapErr]

theorem call_renameErrors (op : GuardedOp) : call op (renameErrors f s) = renameErrors f (call op s) := by
  by_cases hadmit : s.lock = .free ∧ ∃ rest, s.inputs = .grant s.issuer :: rest
  · obtain ⟨hfree, rest, hin⟩ := hadmit
    rw [call_admitted hfree hin, call_admitted (by exact hfree) (renameErrors_inputs f hin), runTransaction, runTransaction,
      ← runSequencer_renameErrors]
    rfl
  · rw [call_waits op hadmit, call_waits op (by rwa [← renameErrors_grant_iff f s] at hadmit)]
    rfl

variable {s} {t : State}

theorem callReady_renameErrors {op : GuardedOp} (h : callReady op s = .next t) :
    callReady op (renameErrors f s) = .next (renameErrors f t) := by
  have hready : (renameErrors f s).ready = s.ready := rfl
  have hout : outstanding (renameErrors f s) (renameErrors f s).issuer = outstanding s s.issuer := rfl
  unfold callReady at h ⊢
  rw [hready, hout]
  split_ifs at h ⊢
  cases h
  exact congrArg _ (call_renameErrors f s op)

theorem execInit_renameErrors {addr : Byte} (h : execInit addr s = .next t) :
    execInit addr (renameErrors f s) = .next (renameErrors f t) := by
  have hready : (renameErrors f s).ready = s.ready := rfl
  have hinit : initOutstanding (renameErrors f s) = initOutstanding s := rfl
  have hout : outstanding (renameErrors f s) (renameErrors f s).issuer = outstanding s s.issuer := rfl
  unfold execInit at h ⊢
  rw [hready, hinit, hout]
  split_ifs at h ⊢
  cases h
  exact congrArg _ (call_renameErrors f s _)

theorem carryOut_renameErrors {c : Selector} (h : carryOut c s = .next t) :
    carryOut c (renameErrors f s) = .next (renameErrors f t) := by
  unfold carryOut at h
  split_ifs at h with hc
  cases h
  obtain ⟨hp, hopc, hsel⟩ := hc
  exact (carryOut_loaded (s := renameErrors f s) hp hopc hsel).trans (congrArg _ (runCommand_renameErrors f s 3))

/-- An instruction does the same under other names. -/
theorem exec_renameErrors {i : Instr} (h : exec i s = .next t) : exec i (renameErrors f s) = .next (renameErrors f t) := by
  cases i with
  | init addr => exact execInit_renameErrors f h
  | reset => exact callReady_renameErrors f h
  | rdTempC => exact callReady_renameErrors f h
  | rdTempF => exact callReady_renameErrors f h
  | rdHum => exact callReady_renameErrors f h
  | crcValidate data expected =>
    by_cases hcrc : crc8 data = expected
    · cases (execCrcValidate_of_match s hcrc).symm.trans h
      exact execCrcValidate_of_match _ hcrc
    · cases (execCrcValidate_of_mismatch s hcrc).symm.trans h
      exact execCrcValidate_of_mismatch _ hcrc
  | cmdLookup sel =>
    change execCmdLookup sel s = _ at h
    change execCmdLookup sel _ = _
    unfold execCmdLookup at h ⊢
    split at h <;> cases h
    rfl
  | softReset => exact carryOut_renameErrors f h
  | trigTempNohold => exact carryOut_renameErrors f h
  | trigHumNohold => exact carryOut_renameErrors f h
  | readUserReg | writeUserReg => cases h

/-! ## One step -/

/-- Settles O45: whichever move the step is, the renamed state makes the renamed one. -/
theorem transportErrorsAreOpaque : Obligations.TransportErrorsAreOpaque := by
  intro f s t h hno
  have hrow {s t : State} (hseq : sequencerStep s = some t) : sequencerStep (renameErrors f s) = some (renameErrors f t) := by
    rw [sequencerStep_renameErrors, hseq]
    rfl
  rcases step_cases h with ⟨hown, _, hseq | ⟨hnone, rfl⟩⟩ | ⟨hw, hmove⟩
  · exact step_of_own_phase (s := renameErrors f s) hown (hrow hseq)
  · rcases waits_of_sequencerStep_none hnone with hw | hreset
    · simp [hown] at hw
    · exact absurd hreset hno
  have hw : (renameErrors f s).phase.waits = true := hw.resolve_right hno
  rcases hmove with ⟨hin, rfl⟩ | ⟨who, frame, rest, i, hin, hd, hex⟩ | ⟨who, rest, hin, hadm⟩ |
    ⟨a, rest, i, hin, hp, hd, hex⟩ | ⟨extra, rest, hin, hp, hseq⟩ | ⟨a, rest, hin, hp, hseq⟩ | ⟨us, rest, hin, rfl⟩ |
    ⟨rest, hin, rfl⟩
  · exact step_of_no_input hw (by simp [renameErrors, hin])
  · exact (step_of_request hw (renameErrors_inputs f hin) hd).trans (exec_renameErrors f hex)
  · exact step_of_grant hw (renameErrors_inputs f hin) (admission_renameErrors f hadm)
  · exact (step_of_loaded_command (s := renameErrors f s) hp (renameErrors_inputs f hin) hd).trans (exec_renameErrors f hex)
  · have ht : phaseDelay extra (inputsLeft rest s) = t := Option.some.inj ((sequencerStep_wake hp hin).symm.trans hseq)
    rw [← ht, ← phaseDelay_renameErrors]
    exact step_of_wake (s := renameErrors f s) hp (renameErrors_inputs f hin)
  · have ht : phaseRead a (inputsLeft rest s) = t := Option.some.inj ((sequencerStep_readAnswered hp hin).symm.trans hseq)
    rw [← ht, ← phaseRead_renameErrors]
    exact step_of_readAnswered (s := renameErrors f s) hp (renameErrors_inputs f hin)
  · exact step_of_advance hw (renameErrors_inputs f hin)
  · exact absurd (by rw [hin]; rfl) hno

end

end Sys2Proof.Safety
end

section
/-! PROOFS. RD_TEMP_F beside RD_TEMP_C on the bus (42_sequencer.md R78, R112), the responses as bytes (30_encoding.md R65), and the two
ends of the invariant: the state after reset, and what the invariant says of the observer. -/

namespace Sys2Proof.Safety

open Sys2Proof.Machine

/-! ## Two temperature readings side by side -/

/-- An RD_TEMP_C under way in `s` and an RD_TEMP_F under way in `t`, alike in all that the bus depends on. -/
structure BusAlike (s t : State) : Prop where
  celsius : s.cur.op = .rdTempC
  fahrenheit : t.cur.op = .rdTempF
  phase : t.phase = s.phase
  inputs : t.inputs = s.inputs
  now : t.now = s.now
  timer : t.timer = s.timer
  cmdOpc : t.cmdOpc = s.cmdOpc
  cmdDly : t.cmdDly = s.cmdDly
  devAddr : t.devAddr = s.devAddr
  raw : t.raw = s.raw
  draws : t.draws = s.draws
  bus : busEvents t.trace = busEvents s.trace

section
variable {s t : State}

theorem BusAlike.emit (h : BusAlike s t) (e : Event) : BusAlike (emit e s) (emit e t) :=
  { h with
    bus := by
      have hbus := h.bus
      simp only [busEvents, emit_trace, List.map_cons, List.filter_cons] at hbus ⊢
      rw [hbus] }

theorem BusAlike.goto (h : BusAlike s t) (p : Phase) : BusAlike (goto p s) (goto p t) := { h with phase := rfl }

theorem BusAlike.inputsLeft (h : BusAlike s t) (rest : List Input) : BusAlike (inputsLeft rest s) (inputsLeft rest t) :=
  { h with inputs := rfl }

theorem BusAlike.endWith (h : BusAlike s t) (x : Ending) : BusAlike (endWith x s) (endWith x t) := by
  cases x <;> exact { h with phase := rfl }

theorem BusAlike.startWrite (h : BusAlike s t) : BusAlike (startWrite s) (startWrite t) := by
  unfold Machine.startWrite
  rw [h.devAddr, h.cmdOpc]
  exact (h.goto .write).emit _

theorem BusAlike.startRead (h : BusAlike s t) : BusAlike (startRead s) (startRead t) := by
  unfold Machine.startRead
  rw [h.devAddr]
  exact (h.goto .read).emit _

/-- Both operations look up the same trigger, and neither binds an address (R78). -/
theorem BusAlike.phaseLookup (h : BusAlike s t) : BusAlike (phaseLookup s) (phaseLookup t) := by
  unfold Machine.phaseLookup
  rw [h.celsius, h.fahrenheit]
  exact BusAlike.startWrite { h with cmdOpc := rfl, cmdDly := rfl }

theorem BusAlike.phaseWrite (h : BusAlike s t) (a : WriteAnswer) : BusAlike (phaseWrite a s) (phaseWrite a t) := by
  cases a with
  | ok => exact { h.emit (.writeAnswer .ok) with phase := rfl, timer := congrArg (fun b : Byte => b.toNat * Config.usPerMs) h.cmdDly }
  | err e => exact (h.emit (.writeAnswer (.err e))).endWith _

theorem BusAlike.phaseDelay (h : BusAlike s t) (extra : Nat) : BusAlike (phaseDelay extra s) (phaseDelay extra t) := by
  have hover : BusAlike (endDelay extra s) (endDelay extra t) :=
    { h with now := by simp [h.now, h.timer], timer := rfl }
  rw [phaseDelay_of_measures (by rw [h.celsius]; rfl), phaseDelay_of_measures (by rw [h.fahrenheit]; rfl)]
  exact hover.startRead

theorem BusAlike.phaseRead (h : BusAlike s t) (a : ReadAnswer) : BusAlike (phaseRead a s) (phaseRead a t) := by
  have hanswered := h.emit (.readAnswer a)
  cases a with
  | ok f => exact { hanswered with phase := rfl, raw := rfl }
  | err e =>
    have hfree : BusAlike (freeSample (Machine.emit (.readAnswer (.err e)) s)) (freeSample (Machine.emit (.readAnswer (.err e)) t)) :=
      { hanswered with raw := by simp [h.draws], draws := by simp [h.draws] }
    exact hfree.endWith _

theorem BusAlike.phaseCheck (h : BusAlike s t) : BusAlike (phaseCheck s) (phaseCheck t) := by
  have hraw := h.raw
  by_cases hcrc : crc8 [s.raw.msb, s.raw.lsb] = s.raw.crc
  · rw [phaseCheck_of_match hcrc, phaseCheck_of_match (by rwa [hraw])]
    exact { h with phase := rfl }
  · rw [phaseCheck_of_mismatch hcrc, phaseCheck_of_mismatch (by rwa [hraw])]
    exact { h with phase := rfl }

/-- The two readings go on together, or both wait. -/
theorem BusAlike.sequencerStep (h : BusAlike s t) : Option.Rel BusAlike (sequencerStep s) (sequencerStep t) := by
  have hreset : resetNext t = resetNext s := by simp [resetNext, h.inputs]
  unfold Machine.sequencerStep
  rw [hreset]
  split
  · exact .none
  · unfold phaseStep
    rw [h.phase, h.inputs]
    split
    · exact .none
    · exact .some h.phaseLookup
    · split
      · exact .some ((h.inputsLeft _).phaseWrite _)
      · exact .none
    · split
      · exact .some ((h.inputsLeft _).phaseDelay _)
      · exact .none
    · split
      · exact .some ((h.inputsLeft _).phaseRead _)
      · exact .none
    · exact .some h.phaseCheck
    · exact .some { h with phase := rfl }
    · exact .some { h with phase := rfl }
    · exact .some { h with phase := rfl }

theorem BusAlike.runSequencer (n : Nat) (h : BusAlike s t) : BusAlike (runSequencer n s) (runSequencer n t) := by
  induction n generalizing s t with
  | zero => exact h
  | succ n ih =>
    have hrel := h.sequencerStep
    unfold Machine.runSequencer
    generalize Machine.sequencerStep s = a, Machine.sequencerStep t = b at hrel
    cases hrel with
    | none => exact h
    | some hnext => exact ih hnext

end

/-- Settles O44: both calls wait, or both are admitted and then go on together. -/
theorem fahrenheitLooksLikeCelsiusOnTheBus : Obligations.FahrenheitLooksLikeCelsiusOnTheBus := by
  intro s t h
  obtain ⟨rfl, hout, hr⟩ : t = call .rdTempC s ∧ outstanding s s.issuer = false ∧ s.ready = true := by
    rcases exec_cases h with ⟨op, hop, ht, hout, hadm⟩ | ⟨_, hpure, _⟩ | ⟨hcommand, _⟩
    · cases hop
      exact ⟨ht, hout, hadm⟩
    · cases hpure
    · cases hcommand
  refine ⟨call .rdTempF s, exec_of_not_outstanding (op := .rdTempF) hr hout, ?_⟩
  by_cases hadmit : s.lock = .free ∧ ∃ rest, s.inputs = .grant s.issuer :: rest
  · obtain ⟨hfree, rest, hin⟩ := hadmit
    rw [call_admitted hfree hin, call_admitted hfree hin]
    have halike : BusAlike (acquire s.issuer .rdTempC (inputsLeft rest { s with pend := s.pend.put s.issuer .rdTempC }))
        (acquire s.issuer .rdTempF (inputsLeft rest { s with pend := s.pend.put s.issuer .rdTempF })) := by
      constructor <;> rfl
    have hend := halike.runSequencer 8
    exact ⟨hend.bus, hend.now, hend.phase, hend.inputs⟩
  · rw [call_waits _ hadmit, call_waits _ hadmit]
    exact ⟨rfl, rfl, rfl, rfl⟩

/-! ## Responses, and the ends of the invariant -/

/-- The four bytes of a 32-bit field are its bits in order (R50). -/
theorem extractLsb'_append_bytes (v : Pattern32) :
    v.extractLsb' 24 8 ++ v.extractLsb' 16 8 ++ v.extractLsb' 8 8 ++ v.extractLsb' 0 8 = v := by
  rw [BitVec.extractLsb'_append_extractLsb'_eq_extractLsb' (show 24 = 16 + 8 from rfl),
    BitVec.extractLsb'_append_extractLsb'_eq_extractLsb' (show 16 = 8 + 8 from rfl),
    BitVec.extractLsb'_append_extractLsb'_eq_extractLsb' (show 8 = 0 + 8 from rfl), BitVec.extractLsb'_eq_self]

/-- Settles O47: each kind of response by its definition; a pattern's bytes put together are the pattern. -/
theorem responsesAsBytes : Obligations.ResponsesAsBytes :=
  ⟨rfl, fun _ _ => rfl, fun _ _ => rfl, fun _ => rfl, fun v => ⟨_, _, _, _, rfl, extractLsb'_append_bytes v⟩⟩

/-- Settles O51: nothing is pending, nothing is under way and nothing has been seen. -/
theorem resetConforms : Obligations.ResetConforms where
  guard := rfl
  handle := ⟨fun _ => ⟨nofun, Nat.zero_le 1, fun hne => absurd rfl hne⟩, nofun⟩
  pendWf := List.Pairwise.nil
  oneEach _ _ := rfl
  command hne := absurd rfl hne
  stage := rfl
  addr hr := hr.elim nofun fun hne => absurd rfl hne.1
  bound := nofun

/-- Settles O52: no phase fits a broken stage, and IDLE fits the quiet one only. -/
theorem conformingStatesHaveUnbrokenTraces : Obligations.ConformingStatesHaveUnbrokenTraces := fun _ hs =>
  ⟨stageFits_not_broken hs.stage, fun hidle => by simpa [stageFits, hidle] using hs.stage⟩

end Sys2Proof.Safety
end
